-- ==== Sys2Proof/Word.lean ====
section
/-! DEFINITION. The bit vectors and the small named sets that SEG7-MOD10 is written in (00_scope.md R9, 30_encoding.md R45, R47, R50). -/

namespace Sys2Proof

/-- A digit `d[3:0]`: 4 bits, unsigned, bit 3 most significant (R45). CUR and every ROM address have this form. -/
abbrev Digit := BitVec 4

/-- A segment vector `seg[6:0]`: 7 bits, 1 = lit (R47). -/
abbrev SegVec := BitVec 7

/-- A value `p[1:0]` of the phase register PH (R50). -/
abbrev PhaseCode := BitVec 2

/-- The seven segments, named by their place on the display (R12, R47). -/
inductive Segment where
  /-- top -/
  | a
  /-- top right -/
  | b
  /-- bottom right -/
  | c
  /-- bottom -/
  | d
  /-- bottom left -/
  | e
  /-- top left -/
  | f
  /-- middle -/
  | g
deriving DecidableEq, Repr

/-- The two levels an output line can have (R12 "Output line", R102). -/
inductive Level where
  | low
  | high
deriving DecidableEq, Repr, Inhabited

end Sys2Proof
end

