-- ==== Sys2Proof/Config.lean ====
section
/-! DEFINITION. The parameters of 00_scope.md R6: the values the spec fixes, and the OPEN ones as constants without a body. -/

namespace Sys2Proof

/-- PIN_MAP: the physical line that carries each segment (R6, R102). Lines have no numbers in the spec, so a line is named by a natural number. -/
structure PinMap where
  a : Nat
  b : Nat
  c : Nat
  d : Nat
  e : Nat
  f : Nat
  g : Nat
deriving DecidableEq, Repr, Inhabited

namespace Config

/-- DIGIT_W: the bits of the digit input and of CUR (R6). -/
def digitW : Nat := 4

/-- SEG_W: the bits of the segment vector (R6). -/
def segW : Nat := 7

/-- ROM_WORDS: one word for each 4-bit address, of which 10 are defined (R6, R22). -/
def romAddresses : Nat := 16

/-- CUR_RESET (R6, R15). -/
def curReset : Digit := 0#4

/-- MODULUS: the counter's modulus (R6). -/
def modulus : Nat := 10

/-- WAIT_MS: the least length of a WAIT, in milliseconds (R6, R84). The step function holds no time (R126). -/
def waitMs : Nat := 1000

/-- The cycles a cycle-count implementation of the wait timer needs (R106). -/
def waitCycles (clkHz : Nat) : Nat := waitMs * clkHz / 1000

/-- The least time of a full cycle of ten digits, in milliseconds (R125: "at least 10 s"). -/
def fullCycleMinMs : Nat := modulus * waitMs

/-- LIT_LEVEL, OPEN (R6, R102, D3): the line level that lights a segment. A constant without a body (log entry 10). -/
opaque litLevel : Level

/-- PIN_MAP, OPEN (R6, R102, D12) (log entry 10). -/
opaque pinMap : PinMap

/-- CONSOLE_EOL, OPEN (R6, R58, D13): the line terminator (log entry 10). -/
opaque consoleEol : List Char

/-- CLK_HZ, OPEN (R6, D21): a clock frequency, if an implementation uses one. No step depends on it (log entry 10). -/
opaque clkHz : Nat

/-- Whether the console sink takes the event with this index in the emitted stream: a free draw per event, under no law (R94, D14) (log entry 9). -/
opaque consoleTakes : Nat → Bool

end Config

end Sys2Proof
end

