-- ==== Sys2Proof/Syntax.lean ====
section
/-! DEFINITION. The operations as syntax: one constructor for each of the 16 rows of opcode_table.json. -/

namespace Sys2Proof

/-- The operations of the block (R2). The rows of format DIGIT4 are ENC on one digit (R59 to R69); the rows of format PHASE2 are the four steps of a tick (R80, R82, R84, R86). -/
inductive Instr where
  /-- ENC 0 (R59) -/
  | enc0
  /-- ENC 1 (R60) -/
  | enc1
  /-- ENC 2 (R61) -/
  | enc2
  /-- ENC 3 (R62) -/
  | enc3
  /-- ENC 4 (R63) -/
  | enc4
  /-- ENC 5 (R64) -/
  | enc5
  /-- ENC 6 (R65) -/
  | enc6
  /-- ENC 7 (R66) -/
  | enc7
  /-- ENC 8 (R67) -/
  | enc8
  /-- ENC 9 (R68) -/
  | enc9
  /-- ENC on an invalid digit, row 101x: the operand is 10 or 11 (R69). -/
  | encInvalid10to11 (d : Digit)
  /-- ENC on an invalid digit, row 11xx: the operand is 12 to 15 (R69). -/
  | encInvalid12to15 (d : Digit)
  /-- LOG (R80) -/
  | log
  /-- APPLY (R82) -/
  | apply
  /-- WAIT (R84) -/
  | wait
  /-- ADV (R86) -/
  | adv
deriving DecidableEq, Repr

end Sys2Proof
end

