-- ==== Sys2Proof/WellFormed.lean ====
section
/-! DEFINITION. Which operations the encodings can carry: the operand of an invalid-digit row is one its row's pattern matches (R69, opcode_table.json). -/

namespace Sys2Proof

/-- The operand lies in the range its row names: 10 and 11 for the row 101x, 12 to 15 for the row 11xx (R69). The other rows have no operand of their own (R49). -/
def Instr.wellFormed : Instr → Bool
  | .enc0 | .enc1 | .enc2 | .enc3 | .enc4 | .enc5 | .enc6 | .enc7 | .enc8 | .enc9 => true
  | .encInvalid10to11 d => decide (10 ≤ d.toNat ∧ d.toNat ≤ 11)
  | .encInvalid12to15 d => decide (12 ≤ d.toNat)
  | .log | .apply | .wait | .adv => true

end Sys2Proof
end

