-- ==== Sys2Proof/Decode.lean ====
section
/-! DEFINITION. The two operation formats, the decoder, the encoder, the opcode table's rows, and the reading of a bare number as an operation (30_encoding.md R45 to R55). -/

namespace Sys2Proof

/-! ## The phase codes (R50) -/

/-- LOG = 0b00 (R50). -/
abbrev phaseLog : PhaseCode := 0b00#2
/-- APPLY = 0b01 (R50). -/
abbrev phaseApply : PhaseCode := 0b01#2
/-- WAIT = 0b10 (R50). -/
abbrev phaseWait : PhaseCode := 0b10#2
/-- ADV = 0b11 (R50). -/
abbrev phaseAdv : PhaseCode := 0b11#2

/-! ## The words of the two formats (R49) -/

/-- An encoded operation: a format and its one field (R49). No other format exists. -/
inductive OpWord where
  /-- format DIGIT4: the digit operand of ENC -/
  | digit4 (d : Digit)
  /-- format PHASE2: the value of PH -/
  | phase2 (p : PhaseCode)
deriving DecidableEq, Repr

/-- How many bits the field has: "The digit is always 4 bits and the phase always 2 bits" (R55). -/
def OpWord.width : OpWord → Nat
  | .digit4 _ => 4
  | .phase2 _ => 2

/-- The field's value as an unsigned number (R9). -/
def OpWord.value : OpWord → Nat
  | .digit4 d => d.toNat
  | .phase2 p => p.toNat

/-! ## Decoding (R52) -/

/-- The row of format DIGIT4 that a digit selects: 0000 to 1001 one each, then 101x, then 11xx (R52). -/
def decodeDigit (d : Digit) : Instr :=
  match d.toNat with
  | 0 => .enc0
  | 1 => .enc1
  | 2 => .enc2
  | 3 => .enc3
  | 4 => .enc4
  | 5 => .enc5
  | 6 => .enc6
  | 7 => .enc7
  | 8 => .enc8
  | 9 => .enc9
  | 10 => .encInvalid10to11 d
  | 11 => .encInvalid10to11 d
  | _ => .encInvalid12to15 d

/-- The step that a value of PH selects (R50). -/
def decodePhase (p : PhaseCode) : Instr :=
  if p = phaseLog then .log
  else if p = phaseApply then .apply
  else if p = phaseWait then .wait
  else .adv

/-- The decoder. It is total: no encoding is reserved and every value of either field names an operation (R52, R54). -/
def decode : OpWord → Instr
  | .digit4 d => decodeDigit d
  | .phase2 p => decodePhase p

/-! ## Encoding -/

/-- The encoded form of an operation, from its row's pattern in opcode_table.json. -/
def encode : Instr → OpWord
  | .enc0 => .digit4 0b0000#4
  | .enc1 => .digit4 0b0001#4
  | .enc2 => .digit4 0b0010#4
  | .enc3 => .digit4 0b0011#4
  | .enc4 => .digit4 0b0100#4
  | .enc5 => .digit4 0b0101#4
  | .enc6 => .digit4 0b0110#4
  | .enc7 => .digit4 0b0111#4
  | .enc8 => .digit4 0b1000#4
  | .enc9 => .digit4 0b1001#4
  | .encInvalid10to11 d => .digit4 d
  | .encInvalid12to15 d => .digit4 d
  | .log => .phase2 phaseLog
  | .apply => .phase2 phaseApply
  | .wait => .phase2 phaseWait
  | .adv => .phase2 phaseAdv

/-! ## The opcode table as data -/

/-- One row of opcode_table.json: its mnemonic, its format (told by the word's constructor), its match and its mask. -/
inductive TableRow where
  | digit4 (mnemonic : String) (pattern mask : Digit)
  | phase2 (mnemonic : String) (pattern mask : PhaseCode)
deriving DecidableEq, Repr

/-- The 16 rows of opcode_table.json, in the table's order. -/
def tableRows : List TableRow :=
  [ .digit4 "ENC_0" 0b0000#4 0b1111#4,
    .digit4 "ENC_1" 0b0001#4 0b1111#4,
    .digit4 "ENC_2" 0b0010#4 0b1111#4,
    .digit4 "ENC_3" 0b0011#4 0b1111#4,
    .digit4 "ENC_4" 0b0100#4 0b1111#4,
    .digit4 "ENC_5" 0b0101#4 0b1111#4,
    .digit4 "ENC_6" 0b0110#4 0b1111#4,
    .digit4 "ENC_7" 0b0111#4 0b1111#4 ] ++
  [ .digit4 "ENC_8" 0b1000#4 0b1111#4,
    .digit4 "ENC_9" 0b1001#4 0b1111#4,
    .digit4 "ENC_invalid__10__11" 0b1010#4 0b1110#4,
    .digit4 "ENC_invalid__12_to_15" 0b1100#4 0b1100#4,
    .phase2 "LOG" 0b00#2 0b11#2,
    .phase2 "APPLY" 0b01#2 0b11#2,
    .phase2 "WAIT" 0b10#2 0b11#2,
    .phase2 "ADV" 0b11#2 0b11#2 ]

/-- A word matches a row of its own format when the masked field is the row's pattern (R52). -/
def TableRow.accepts : TableRow → OpWord → Bool
  | .digit4 _ pattern mask, .digit4 d => d &&& mask == pattern
  | .phase2 _ pattern mask, .phase2 p => p &&& mask == pattern
  | .digit4 _ _ _, .phase2 _ => false
  | .phase2 _ _ _, .digit4 _ => false

/-- The mnemonic of a row. -/
def TableRow.mnemonic : TableRow → String
  | .digit4 m _ _ => m
  | .phase2 m _ _ => m

/-- An operation's row of the table, by its mnemonic there. -/
def Instr.mnemonic : Instr → String
  | .enc0 => "ENC_0"
  | .enc1 => "ENC_1"
  | .enc2 => "ENC_2"
  | .enc3 => "ENC_3"
  | .enc4 => "ENC_4"
  | .enc5 => "ENC_5"
  | .enc6 => "ENC_6"
  | .enc7 => "ENC_7"
  | .enc8 => "ENC_8"
  | .enc9 => "ENC_9"
  | .encInvalid10to11 _ => "ENC_invalid__10__11"
  | .encInvalid12to15 _ => "ENC_invalid__12_to_15"
  | .log => "LOG"
  | .apply => "APPLY"
  | .wait => "WAIT"
  | .adv => "ADV"

/-! ## A bare number as an operation -/

/-- Why a number is no encoded operation. -/
inductive Reject where
  /-- The number does not fit the 4-bit digit. -/
  | digitTooWide (n : Nat)
  /-- The number does not fit the 2-bit phase. -/
  | phaseTooWide (n : Nat)
  /-- No format has this many bits (R49, R55). -/
  | noSuchWidth (nbits : Nat)
deriving DecidableEq, Repr

/-- The digit a number stands for; a number outside 0 to 15 is refused, never truncated (R74, D4). -/
def digitWord (n : Nat) : Except Reject OpWord :=
  if n < 16 then .ok (.digit4 (BitVec.ofNat 4 n)) else .error (.digitTooWide n)

/-- The phase a number stands for. -/
def phaseWord (n : Nat) : Except Reject OpWord :=
  if n < 4 then .ok (.phase2 (BitVec.ofNat 2 n)) else .error (.phaseTooWide n)

/-- A number of `nbits` bits as an encoded operation. 4 bits are format DIGIT4 and 2 bits format PHASE2 (R55).
DESIGN CHOICE (log entry 11): a number given in whole bytes names no format, and the values 0 to 3 stand in both; it is read
in the narrowest format that holds it. -/
def readWord (nbits n : Nat) : Except Reject OpWord :=
  if nbits = 4 then digitWord n
  else if nbits = 2 then phaseWord n
  else if nbits = 0 ∨ nbits % 8 ≠ 0 then .error (.noSuchWidth nbits)
  else if n < 4 then phaseWord n
  else digitWord n

/-- Decoding of a bare number: total, rejecting by name. -/
def decodeWord (nbits n : Nat) : Except Reject Instr :=
  match readWord nbits n with
  | .ok w => .ok (decode w)
  | .error r => .error r

/-- The operation the decoder reads from a number of `nbits` bits, numbered as opcode_table.json numbers them. -/
def decodeTableWord (nbits w : Nat) : Option Instr :=
  match decodeWord nbits w with
  | .ok i => some i
  | .error _ => none

end Sys2Proof
end

