-- ==== Sys2Proof/Machine/State.lean ====
section
/-! DEFINITION. The machine's state, the state after reset, and the reasons a step can stop (10_state.md R13 to R25, 70_reset_and_hazards.md R111, R115, R128). -/

namespace Sys2Proof.Machine

/-- The two configurations of the block (R7). -/
inductive Configuration where
  /-- the whole block: the sequencer issues every operation -/
  | composed
  /-- the encoder alone, its digit driven by a test harness -/
  | encoderOnly
deriving DecidableEq, Repr

/-- What the rules say of the wait timer WT (R23, R84, R85, R111); its form and its count are the implementation's (log entry 5). -/
inductive WaitTimer where
  /-- no wait is running (R111) -/
  | idle
  /-- started on entry to WAIT, its interval not over (R85) -/
  | running
  /-- TIMER_DONE has been signalled and WAIT has not taken it yet (R84) -/
  | done
deriving DecidableEq, Repr

/-- A console event (R10, R24). UNIMPL carries no operand (R91). -/
inductive ConsoleEvent where
  /-- DISP(d): LOG's event, with the digit logged -/
  | disp (d : Digit)
  /-- UNIMPL: the report of an invalid digit -/
  | unimpl
deriving DecidableEq, Repr

/-- The two ways the environment resets the block (R111, R113). -/
inductive ResetKind where
  /-- a RESET of the running block: SEG keeps its value (R111) -/
  | warm
  /-- power lost and given again: SEG comes up with the unspecified value `seg`, which the environment draws (R109, R115) -/
  | powerOn (seg : SegVec)
deriving DecidableEq, Repr

/-- What the environment does at one step (R128). Several may happen in one instant; RESET then wins (R97). -/
structure EnvSlot where
  /-- RESET is asserted -/
  reset : Option ResetKind
  /-- the timer signals TIMER_DONE -/
  timerDone : Bool
  /-- the harness strobes `enc` with this digit driven -/
  strobe : Option Digit
deriving DecidableEq, Repr

/-- A step at which the environment does nothing. -/
def EnvSlot.quiet : EnvSlot := { reset := none, timerDone := false, strobe := none }

/-- A step at which RESET is asserted. -/
def EnvSlot.warmReset : EnvSlot := { EnvSlot.quiet with reset := some .warm }

/-- A step at which the block is powered on again, SEG coming up as `seg`. -/
def EnvSlot.powerOn (seg : SegVec) : EnvSlot := { EnvSlot.quiet with reset := some (.powerOn seg) }

/-- A step at which the timer signals. -/
def EnvSlot.timer : EnvSlot := { EnvSlot.quiet with timerDone := true }

/-- A step at which the harness requests ENC d. -/
def EnvSlot.enc (d : Digit) : EnvSlot := { EnvSlot.quiet with strobe := some d }

/-- The state of the machine (R14), with the emitted console stream (R24, R127), the configuration of the run (R25) and what
the environment will do (R128). ROM is a constant, not a field (R22, R25, log entry 13). -/
structure State where
  /-- the run's configuration; no step changes it (R25, log entry 7) -/
  cfg : Configuration
  /-- CUR, the current digit (R15); inert in ENCODER_ONLY -/
  cur : Digit
  /-- PH, the step the sequencer performs next (R17); inert in ENCODER_ONLY -/
  ph : PhaseCode
  /-- SEG, the segment register (R18) -/
  seg : SegVec
  /-- WT, the wait timer (R23); inert in ENCODER_ONLY -/
  wt : WaitTimer
  /-- the events emitted since power-on, in emission order (R24, R40) -/
  console : List ConsoleEvent
  /-- the MODEL's own: what the environment does at each coming step, the next one first; quiet once the list is used up (log entry 3) -/
  env : List EnvSlot
deriving DecidableEq, Repr

/-- The block right after power-on, for a configuration and the value SEG happens to come up with (R111, R115). -/
def State.powerOn (cfg : Configuration) (seg : SegVec) : State :=
  { cfg := cfg, cur := Config.curReset, ph := phaseLog, seg := seg, wt := .idle, console := [], env := [] }

/-- The machine right after reset: the whole block. DESIGN CHOICE (log entry 1): the spec gives SEG no reset value, and
this one state has 0 there; what holds after power-on is said of `State.powerOn cfg seg` for every `seg`. -/
def State.reset : State := State.powerOn .composed 0b0000000#7

/-- The faults of the machine: none. "No condition in rule R92 stops, redirects or stalls the block" (R93), so the type has no
constructor, nobody can raise one, and that is safe (log entry 14). -/
inductive Fault where
deriving DecidableEq, Repr

/-- The reasons a step gives no meaning. -/
inductive Refusal where
  /-- Raised by an arm of `exec` whose operation has no meaning yet, with its mnemonic; no arm of this model does. Safe: a run
  stops where the hardware would go on. -/
  | notModelled (mnemonic : String)
deriving DecidableEq, Repr

end Sys2Proof.Machine
end

