-- ==== Sys2Proof/Machine/Flags.lean ====
section
/-! DEFINITION. The block has no flag register (10_state.md R19): what stands here are the names and codes of the error conditions, which no register or port carries (60_exceptions.md R92). -/

namespace Sys2Proof.Machine

/-- The conditions of R92 that have a code. OutputLineFailure has none and is out of scope (R95). -/
inductive Condition where
  /-- an ENC with a digit of 10 to 15 (R91) -/
  | invalidDigit
  /-- the console sink fails to take a line (R94) -/
  | consoleDrop
deriving DecidableEq, Repr

/-- The code of a condition (R92). -/
def conditionCode : Condition → Nat
  | .invalidDigit => 1
  | .consoleDrop => 2

/-- The condition an ENC step raises: InvalidDigit when its digit is 10 or more, otherwise none (R91, R97). -/
def encCondition (d : Digit) : Option Condition :=
  if 10 ≤ d.toNat then some .invalidDigit else none

/-- The condition an emitted event meets at the sink: ConsoleDrop when it is not taken (R94). -/
def sinkCondition (taken : Bool) : Option Condition := if taken then none else some .consoleDrop

end Sys2Proof.Machine
end

