-- ==== Sys2Proof/Machine/Operands.lean ====
section
/-! DEFINITION. The operand forms: the digit and its validity, the driven integer of a harness, and the segments of a segment vector (30_encoding.md R45 to R47, R51, 40_encoder.md R70, R74). -/

namespace Sys2Proof.Machine

/-- `valid(d) = (d <= 9)`: the valid signal of an ENC step, computed from the operand alone (R46, R70). -/
def digitValid (d : Digit) : Bool := decide (d.toNat ≤ 9)

/-- The same in bits: `not d[3] or (not d[2] and not d[1])` (R46). -/
def digitValidBits (d : Digit) : Bool := !d.getLsbD 3 || (!d.getLsbD 2 && !d.getLsbD 1)

/-- The value of a digit from its bits (R9, R45). -/
def digitValue (d : Digit) : Nat :=
  (d.getLsbD 3).toNat * 8 + (d.getLsbD 2).toNat * 4 + (d.getLsbD 1).toNat * 2 + (d.getLsbD 0).toNat

/-- The operand that LOG, APPLY and ADV read implicitly: CUR, unchanged (R51). -/
def currentDigit (s : State) : Digit := s.cur

/-- The digit a harness drives for an integer: refused outside 0 to 15, never truncated (R74, D4). -/
def drivenDigit (n : Int) : Option Digit :=
  if 0 ≤ n ∧ n ≤ 15 then some (BitVec.ofNat 4 n.toNat) else none

/-- What a harness does to request ENC of an integer: a strobe, or nothing where it refuses the integer ("refused inputs have
no step", D4). -/
def harnessRequest (n : Int) : EnvSlot :=
  match drivenDigit n with
  | some d => .enc d
  | none => .quiet

/-- The bit that carries a segment: A at bit 6 down to G at bit 0 (R47). -/
def segmentBit : Segment → Nat
  | .a => 6
  | .b => 5
  | .c => 4
  | .d => 3
  | .e => 2
  | .f => 1
  | .g => 0

/-- Whether a segment is lit in a segment vector (R47). -/
def segmentLit (v : SegVec) (x : Segment) : Bool := v.getLsbD (segmentBit x)

/-- The seven segments in the document's column order (R47). -/
def allSegments : List Segment := [.a, .b, .c, .d, .e, .f, .g]

/-- The segments a vector lights, in column order. -/
def litSegments (v : SegVec) : List Segment := allSegments.filter (segmentLit v)

/-- A segment vector as a 7-character binary string, A leftmost (R47). -/
def segmentText (v : SegVec) : List Char := allSegments.map fun x => if segmentLit v x then '1' else '0'

end Sys2Proof.Machine
end

