-- ==== Sys2Proof/Machine/Ops.lean ====
section
/-! DEFINITION. The primitives of 00_scope.md R10 and what the operations share: ROM, SEG, console, the invalid-digit condition, ENC, the phase register, the wait timer, the counter, and the reset events. -/

namespace Sys2Proof.Machine

/-! ## ROM (R22, R30, R59 to R69) -/

/-- The ten defined words, at addresses 0 to 9 (R59 to R68). Addresses 10 to 15 have none (R69). -/
def romWords : List SegVec :=
  [ 0b1111110#7,
    0b0110000#7,
    0b1101101#7,
    0b1111001#7,
    0b0110011#7,
    0b1011011#7,
    0b0011111#7,
    0b1110000#7,
    0b1111111#7,
    0b1110011#7 ]

/-- `RomRead(a)`: the word at the address, or `none` for 10 to 15. Total and without side effect (R30, R32). -/
def romRead (a : Digit) : Option SegVec := romWords[a.toNat]?

/-! ## Writes and events -/

/-- `SegWrite(v)`: all seven bits of SEG at once (R33, R34). -/
def segWrite (v : SegVec) (s : State) : State := { s with seg := v }

/-- `Emit(e)`: append to the console event stream (R38). -/
def emit (e : ConsoleEvent) (s : State) : State := { s with console := s.console ++ [e] }

/-- `raise InvalidDigit(d)`: the block's one exception. It emits UNIMPL and nothing else; it records no operand, saves no
state, changes no mode and redirects nothing, so no return from it exists (R10, R91, R98, R99). -/
def raiseInvalidDigit (_d : Digit) (s : State) : State := emit .unimpl s

/-- `ENC(d)` (R71). -/
def enc (d : Digit) (s : State) : State :=
  match romRead d with
  | some v => segWrite v s
  | none => raiseInvalidDigit d s

/-! ## Phase register and wait timer -/

/-- `PH <- p` (R79). -/
def setPhase (p : PhaseCode) (s : State) : State := { s with ph := p }

/-- `next(PH)`: `(PH + 1) mod 4` (R79). -/
def nextPhase (p : PhaseCode) : PhaseCode := p + 1#2

/-- Entry to WAIT: PH becomes WAIT and the timer starts then (R82, R84, R85). -/
def enterWait (s : State) : State := { s with ph := phaseWait, wt := .running }

/-- The end of WAIT: TIMER_DONE is taken and PH becomes ADV (R84). -/
def leaveWait (s : State) : State := { s with ph := phaseAdv, wt := .idle }

/-- TIMER_DONE, an event enabled only while `PH == WAIT` (R84, R128); at another phase it cannot happen (log entry 4). -/
def timerEvent (s : State) : State := if s.ph = phaseWait then { s with wt := .done } else s

/-! ## The counter -/

/-- ADV's arithmetic: `if CUR >= 9 then 0 else CUR + 1`, the sum formed as a natural number (R86, R87). -/
def advanceDigit (c : Digit) : Digit :=
  if 9 ≤ c.toNat then 0#4 else BitVec.ofNat 4 (c.toNat + 1)

/-! ## Reset -/

/-- RESET: in COMPOSED CUR, PH and WT take their reset values; in ENCODER_ONLY it writes nothing. SEG and the console stream
stay, and no event is emitted (R111, R115). -/
def warmReset (s : State) : State :=
  match s.cfg with
  | .composed => { s with cur := Config.curReset, ph := phaseLog, wt := .idle }
  | .encoderOnly => s

/-- Power-on: a RESET with SEG at the unspecified value `seg` and a console stream empty of the block's events (R109, R113, R115). -/
def powerOnReset (seg : SegVec) (s : State) : State :=
  { warmReset s with seg := seg, console := [] }

/-- The reset event of a kind (R111, R113). -/
def resetEvent (k : ResetKind) (s : State) : State :=
  match k with
  | .warm => warmReset s
  | .powerOn seg => powerOnReset seg s

end Sys2Proof.Machine
end

