-- ==== Sys2Proof/Machine/Encoder.lean ====
section
/-! DEFINITION. The meanings of the DIGIT4 rows: ENC on each digit (40_encoder.md R59 to R71). Each is ENC of R71 with its row's digit. -/

namespace Sys2Proof.Machine

/-- ENC 0 (R59, R71). -/
def execEnc0 (s : State) : Host.Outcome State Fault Refusal := .next (enc 0b0000#4 s)

/-- ENC 1 (R60, R71). -/
def execEnc1 (s : State) : Host.Outcome State Fault Refusal := .next (enc 0b0001#4 s)

/-- ENC 2 (R61, R71). -/
def execEnc2 (s : State) : Host.Outcome State Fault Refusal := .next (enc 0b0010#4 s)

/-- ENC 3 (R62, R71). -/
def execEnc3 (s : State) : Host.Outcome State Fault Refusal := .next (enc 0b0011#4 s)

/-- ENC 4 (R63, R71). -/
def execEnc4 (s : State) : Host.Outcome State Fault Refusal := .next (enc 0b0100#4 s)

/-- ENC 5 (R64, R71). -/
def execEnc5 (s : State) : Host.Outcome State Fault Refusal := .next (enc 0b0101#4 s)

/-- ENC 6 (R65, R71). -/
def execEnc6 (s : State) : Host.Outcome State Fault Refusal := .next (enc 0b0110#4 s)

/-- ENC 7 (R66, R71). -/
def execEnc7 (s : State) : Host.Outcome State Fault Refusal := .next (enc 0b0111#4 s)

/-- ENC 8 (R67, R71). -/
def execEnc8 (s : State) : Host.Outcome State Fault Refusal := .next (enc 0b1000#4 s)

/-- ENC 9 (R68, R71). -/
def execEnc9 (s : State) : Host.Outcome State Fault Refusal := .next (enc 0b1001#4 s)

/-- ENC on 10 or 11 (R69, R71): the condition InvalidDigit, an ordinary step (R91). -/
def execEncInvalid10to11 (d : Digit) (s : State) : Host.Outcome State Fault Refusal := .next (enc d s)

/-- ENC on 12 to 15 (R69, R71): the condition InvalidDigit, an ordinary step (R91). -/
def execEncInvalid12to15 (d : Digit) (s : State) : Host.Outcome State Fault Refusal := .next (enc d s)

end Sys2Proof.Machine
end

