-- ==== Sys2Proof/Machine/Sequencer.lean ====
section
/-! DEFINITION. The meanings of the PHASE2 rows: the four steps of a tick (41_sequencer.md R80, R82, R84, R86). When each is performed is `step`'s (R52). -/

namespace Sys2Proof.Machine

/-- LOG (R80): `Emit(DISP(CUR)); PH <- APPLY`. -/
def execLog (s : State) : Host.Outcome State Fault Refusal :=
  .next (setPhase phaseApply (emit (.disp (currentDigit s)) s))

/-- APPLY (R82): `ENC(CUR); PH <- WAIT`, the timer starting as PH becomes WAIT (R84). -/
def execApply (s : State) : Host.Outcome State Fault Refusal :=
  .next (enterWait (enc (currentDigit s) s))

/-- WAIT (R84): `hold until TIMER_DONE; PH <- ADV`. While TIMER_DONE has not been signalled the block holds, every register
keeping its value (log entry 6). -/
def execWait (s : State) : Host.Outcome State Fault Refusal :=
  match s.wt with
  | .done => .next (leaveWait s)
  | .running => .next s
  | .idle => .next s

/-- ADV (R86): `CUR <- if CUR >= 9 then 0 else CUR + 1; PH <- LOG`. -/
def execAdv (s : State) : Host.Outcome State Fault Refusal :=
  .next (setPhase phaseLog { s with cur := advanceDigit (currentDigit s) })

end Sys2Proof.Machine
end

