-- ==== Sys2Proof/Machine/Dispatch.lean ====
section
/-! DEFINITION. One arm for each constructor of Instr. -/

namespace Sys2Proof.Machine

-- What an operation does to the state when it is performed (40_encoder.md R71, 41_sequencer.md R80 to R86).
def exec (i : Instr) (s : State) : Host.Outcome State Fault Refusal :=
  match i with
  | .enc0 => Sys2Proof.Machine.execEnc0 s
  | .enc1 => Sys2Proof.Machine.execEnc1 s
  | .enc2 => Sys2Proof.Machine.execEnc2 s
  | .enc3 => Sys2Proof.Machine.execEnc3 s
  | .enc4 => Sys2Proof.Machine.execEnc4 s
  | .enc5 => Sys2Proof.Machine.execEnc5 s
  | .enc6 => Sys2Proof.Machine.execEnc6 s
  | .enc7 => Sys2Proof.Machine.execEnc7 s
  | .enc8 => Sys2Proof.Machine.execEnc8 s
  | .enc9 => Sys2Proof.Machine.execEnc9 s
  | .encInvalid10to11 d => Sys2Proof.Machine.execEncInvalid10to11 d s
  | .encInvalid12to15 d => Sys2Proof.Machine.execEncInvalid12to15 d s
  | .log => Sys2Proof.Machine.execLog s
  | .apply => Sys2Proof.Machine.execApply s
  | .wait => Sys2Proof.Machine.execWait s
  | .adv => Sys2Proof.Machine.execAdv s

end Sys2Proof.Machine
end

