-- ==== Sys2Proof/Machine/Fetch.lean ====
section
/-! DEFINITION. What selects the next operation: the environment's slot, PH in COMPOSED, the driven digit in ENCODER_ONLY (30_encoding.md R52, 40_encoder.md R75); and how a given operation is made the next one. -/

namespace Sys2Proof.Machine

/-- What the environment does at this step: the schedule's head, and nothing once the schedule is used up (log entry 3). -/
def currentSlot (s : State) : EnvSlot :=
  match s.env with
  | [] => .quiet
  | slot :: _ => slot

/-- The state with this step's slot used up. -/
def dropSlot (s : State) : State := { s with env := s.env.tail }

/-- The state the sequencer's operation is performed in: TIMER_DONE, where it comes at this step, has been signalled (R84).
A strobe means nothing in COMPOSED: "No external digit input exists" (R7). -/
def sequencerInput (slot : EnvSlot) (s : State) : State :=
  if slot.timerDone then timerEvent s else s

/-- The encoded operation of this step when RESET is not asserted: in COMPOSED the value of PH, in ENCODER_ONLY the driven
digit when `enc` is strobed, and otherwise none (R52, R75). -/
def fetchWord (s : State) : Option OpWord :=
  match s.cfg with
  | .composed => some (.phase2 s.ph)
  | .encoderOnly => (currentSlot s).strobe.map .digit4

/-- The state an operation of this step is performed in, when RESET is not asserted. -/
def issueState (s : State) : State :=
  match s.cfg with
  | .composed => sequencerInput (currentSlot s) (dropSlot s)
  | .encoderOnly => dropSlot s

/-- The state made so that the next step performs the operation of a word: PH holds its phase and, for WAIT, the wait is running
and TIMER_DONE comes; or the harness strobes its digit (R49, R52). The environment does nothing else at that step (log entry 11). -/
def placeWord (w : OpWord) (s : State) : State :=
  match w with
  | .phase2 p =>
    if p = phaseWait then { s with cfg := .composed, ph := p, wt := .running, env := .timer :: s.env }
    else { s with cfg := .composed, ph := p, wt := .idle, env := .quiet :: s.env }
  | .digit4 d => { s with cfg := .encoderOnly, env := .enc d :: s.env }

end Sys2Proof.Machine
end

