-- ==== Sys2Proof/Machine/Step.lean ====
section
/-! DEFINITION. One step of the machine: RESET first, then the operation the configuration selects (30_encoding.md R52, 60_exceptions.md R97, 70_reset_and_hazards.md R112). -/

namespace Sys2Proof.Machine

/-- One step. RESET has priority over every operation and over TIMER_DONE (R97, R112). Otherwise the decoded operation is
performed; in ENCODER_ONLY without a strobe the block does nothing (R75). -/
def step (s : State) : Host.Outcome State Fault Refusal :=
  match (currentSlot s).reset with
  | some k => .next (resetEvent k (dropSlot s))
  | none =>
    match fetchWord s with
    | some w => exec (decode w) (issueState s)
    | none => .next (issueState s)

/-- The state in which the next step performs the operation of a number, read as `decodeTableWord` reads it; a number that is
no operation leaves the state as it is. -/
def State.withFetchWord (s : State) (nbits w : Nat) : State :=
  match readWord nbits w with
  | .ok word => placeWord word s
  | .error _ => s

end Sys2Proof.Machine
end

