-- ==== Sys2Proof/Machine/Observe.lean ====
section
/-! DEFINITION. What the environment sees: the console's text and the events the sink takes, the output lines, and the observation of a run (30_encoding.md R58, 60_exceptions.md R94, R102, R103, 70_reset_and_hazards.md R127). -/

namespace Sys2Proof.Machine

/-! ## Console text (R58) -/

/-- The text before the digit of a DISP line (R58). -/
def dispText : List Char :=
  ['D', 'i', 's', 'p', 'l', 'a', 'y', 'i', 'n', 'g', ' ', 'n', 'u', 'm', 'b', 'e', 'r', ':', ' ']

/-- The text of an UNIMPL line (R58). -/
def unimplText : List Char :=
  ['U', 'n', 'i', 'm', 'p', 'l', 'e', 'm', 'e', 'n', 't', 'e', 'd']

/-- A digit as a decimal number: one character for 0 to 9, and "10" to "15" for the unreachable rest (R58, D11). -/
def decimalText (d : Digit) : List Char :=
  if d.toNat ≤ 9 then [Nat.digitChar d.toNat] else ['1', Nat.digitChar (d.toNat - 10)]

/-- The text of an event's line, without its terminator (R58). -/
def eventText : ConsoleEvent → List Char
  | .disp d => dispText ++ decimalText d
  | .unimpl => unimplText

/-- The line of an event, for a terminator CONSOLE_EOL (R58). -/
def eventLine (eol : List Char) (e : ConsoleEvent) : List Char := eventText e ++ eol

/-- The codes of a text's characters, which are ASCII (R58; PRESUMED, the spec's own general knowledge, log entry 17). -/
def asciiCodes (text : List Char) : List Nat := text.map Char.toNat

/-! ## Console delivery (R94) -/

/-- The events a sink takes of a stream, where `takes k` says whether it takes the event with index `k` and the stream's
first event has index `k0`. -/
def deliveredFrom (takes : Nat → Bool) (k0 : Nat) : List ConsoleEvent → List ConsoleEvent
  | [] => []
  | e :: es => if takes k0 then e :: deliveredFrom takes (k0 + 1) es else deliveredFrom takes (k0 + 1) es

/-- What reaches the console of an emitted stream: a subsequence, in emission order, by one draw for each event (R94). -/
def delivered (takes : Nat → Bool) (stream : List ConsoleEvent) : List ConsoleEvent := deliveredFrom takes 0 stream

/-- The console's content as characters, for a sink and a terminator (R58, R103). -/
def consoleContent (takes : Nat → Bool) (eol : List Char) (s : State) : List Char :=
  (delivered takes s.console).flatMap (eventLine eol)

/-- The content of the console of this implementation: its free draws and its terminator (log entries 9 and 10). -/
def consoleText (s : State) : List Char := consoleContent Config.consoleTakes Config.consoleEol s

/-! ## Output lines (R102) -/

/-- The other level. -/
def oppositeLevel : Level → Level
  | .low => .high
  | .high => .low

/-- The level of the line for a segment: LIT_LEVEL when the segment's bit of SEG is 1, the opposite level when it is 0 (R102). -/
def lineLevel (lit : Level) (s : State) (x : Segment) : Level :=
  if segmentLit s.seg x then lit else oppositeLevel lit

/-- The physical line PIN_MAP gives a segment (R102). -/
def pinOf (m : PinMap) : Segment → Nat
  | .a => m.a
  | .b => m.b
  | .c => m.c
  | .d => m.d
  | .e => m.e
  | .f => m.f
  | .g => m.g

/-- PIN_MAP gives each segment a line of its own: "seven independently addressable binary outputs" (R102). -/
def PinMapDistinct (m : PinMap) : Prop := ∀ x y, pinOf m x = pinOf m y → x = y

/-- The level of a physical line: that of the segment it carries, and nothing the block drives where it carries none (R102). -/
def pinLevel (m : PinMap) (lit : Level) (s : State) (pin : Nat) : Option Level :=
  (allSegments.find? fun x => pinOf m x == pin).map (lineLevel lit s)

/-- The level of a physical line of this implementation (log entry 10). -/
def outputPin (s : State) (pin : Nat) : Option Level := pinLevel Config.pinMap Config.litLevel s pin

/-! ## Observation (R127) -/

/-- What is observed of a finite prefix of a run (R127). -/
inductive Observation where
  /-- COMPOSED: the final values of CUR, PH and SEG and the emitted events -/
  | composed (cur : Digit) (ph : PhaseCode) (seg : SegVec) (events : List ConsoleEvent)
  /-- ENCODER_ONLY: SEG and the emitted events -/
  | encoderOnly (seg : SegVec) (events : List ConsoleEvent)
deriving DecidableEq, Repr

/-- The observation of a run's prefix that ends in this state (R127). -/
def observe (s : State) : Observation :=
  match s.cfg with
  | .composed => .composed s.cur s.ph s.seg s.console
  | .encoderOnly => .encoderOnly s.seg s.console

end Sys2Proof.Machine
end

