-- ==== Sys2Proof/Machine/Trace.lean ====
section
/-! DEFINITION. The notation of traces: its items, the expansion of its pseudo-operations, and what a trace makes the environment do (30_encoding.md R56, R57). -/

namespace Sys2Proof.Machine

/-- An item of a trace (R56, R57). -/
inductive TraceItem where
  /-- `ENC d`, only in ENCODER_ONLY -/
  | enc (d : Digit)
  | log
  | apply
  /-- `WAIT`: the block stands in WAIT, held until what follows it -/
  | wait
  | adv
  /-- the reset event -/
  | reset
  /-- the timer's event, which ends a WAIT -/
  | timerDone
  /-- `TICK` -/
  | tick
  /-- `RUN n` -/
  | run (n : Nat)
deriving DecidableEq, Repr

/-- The digit an ENC operand is written as: a decimal 0 to 15, or a binary `0b` literal of 4 bits (R56). -/
def readOperand : List Char → Option Digit
  | ['0', 'b', a, b, c, d] =>
    if [a, b, c, d].all (fun x => x == '0' || x == '1') then
      some (BitVec.ofNat 4 ((a == '1').toNat * 8 + (b == '1').toNat * 4 + (c == '1').toNat * 2 + (d == '1').toNat))
    else none
  | ['1', u] => if '0' ≤ u ∧ u ≤ '5' then some (BitVec.ofNat 4 (10 + (u.toNat - '0'.toNat))) else none
  | [u] => if '0' ≤ u ∧ u ≤ '9' then some (BitVec.ofNat 4 (u.toNat - '0'.toNat)) else none
  | _ => none

/-- `TICK` expands to `LOG; APPLY; WAIT (ended by TIMER_DONE); ADV` (R57). -/
def tickItems : List TraceItem := [.log, .apply, .wait, .timerDone, .adv]

/-- The expansion of an item (R57): `RUN n` is n `TICK`s. -/
def expandItem : TraceItem → List TraceItem
  | .tick => tickItems
  | .run n => (List.replicate n tickItems).flatten
  | .enc d => [.enc d]
  | .log => [.log]
  | .apply => [.apply]
  | .wait => [.wait]
  | .adv => [.adv]
  | .reset => [.reset]
  | .timerDone => [.timerDone]

/-- The expansion of a trace. -/
def expandTrace (t : List TraceItem) : List TraceItem := t.flatMap expandItem

/-- Whether a sequencer step may stand here: COMPOSED, and PH holds its phase (R56). -/
def atPhase (p : PhaseCode) (s : State) : Bool := decide (s.cfg = .composed ∧ s.ph = p)

/-- What the environment does at the step of an expanded item, in a state the item is allowed in: `some (some slot)` for an
item that takes a step, `some none` for WAIT, whose step is its TIMER_DONE, and `none` where a trace may not list the item
(R56; log entry 16). -/
def itemSlot (s : State) : TraceItem → Option (Option EnvSlot)
  | .enc d => if s.cfg = .encoderOnly then some (some (.enc d)) else none
  | .log => if atPhase phaseLog s then some (some .quiet) else none
  | .apply => if atPhase phaseApply s then some (some .quiet) else none
  | .wait => if atPhase phaseWait s then some none else none
  | .adv => if atPhase phaseAdv s then some (some .quiet) else none
  | .reset => some (some .warmReset)
  | .timerDone => if atPhase phaseWait s then some (some .timer) else none
  | .tick => none
  | .run _ => none

/-- One step in which the environment does what the slot says, whatever it was scheduled to do. -/
def stepWith (slot : EnvSlot) (s : State) : Host.Outcome State Fault Refusal := step { s with env := slot :: s.env }

/-- The state after a trace of expanded items, or nothing where the trace lists an item that cannot stand there. -/
def runItems : List TraceItem → State → Option State
  | [], s => some s
  | i :: rest, s =>
    match itemSlot s i with
    | none => none
    | some none => runItems rest s
    | some (some slot) =>
      match stepWith slot s with
      | .next t => runItems rest t
      | .fault _ => none
      | .refused _ => none

/-- The state after a trace (R56, R57). -/
def runTrace (t : List TraceItem) (s : State) : Option State := runItems (expandTrace t) s

end Sys2Proof.Machine
end

