-- ==== Sys2Proof/Safety.lean ====
section
/-! DEFINITION. What statements about runs are made of: launch premises, the invariant of reachable states, ticks as the environment's schedule, and runs under an endless environment with fairness (10_state.md R16, R26, 41_sequencer.md R78, R88, 70_reset_and_hazards.md R126, R129). -/

namespace Sys2Proof.Machine

/-- What one of the rules R59 to R68 says of its digit: the row's pattern is that operation, the ROM word at the digit's address is
the listed one and lights exactly the listed segments, and the operation writes the word to SEG and does nothing else. -/
def EncRow (i : Instr) (d : Digit) (v : SegVec) (lit : List Segment) : Prop :=
  decode (.digit4 d) = i ∧ romRead d = some v ∧ litSegments v = lit ∧ ∀ s, exec i s = .next { s with seg := v }

/-- The corner cases those rules name for the table as a whole: C is unlit only for 2 (R61), B only for 5 and 6 (R64), every
digit lights 2 to 7 segments (R60, R67), and only 8 and 9 have `d[3] = 1` (R67). -/
def EncTableCorners (d : Digit) (v : SegVec) : Prop :=
  (segmentLit v .c = false → d = 2#4) ∧ (segmentLit v .b = false → d = 5#4 ∨ d = 6#4) ∧
  2 ≤ (litSegments v).length ∧ (litSegments v).length ≤ 7 ∧ ((litSegments v).length = 2 → d = 1#4) ∧
  ((litSegments v).length = 7 → d = 8#4) ∧ (d.getLsbD 3 = true → d = 8#4 ∨ d = 9#4)

/-- The operations of format DIGIT4 that the encodings carry. -/
def IsEnc (i : Instr) : Prop := ∃ d, i = decodeDigit d

/-- The launch premises on the registers, for a state other than the one after RESET (R129): CUR at most 9, and no TIMER_DONE
pending unless PH is WAIT. -/
def Launch (s : State) : Prop := s.cur.toNat ≤ 9 ∧ (s.wt = .done → s.ph = phaseWait)

/-- CUR is in the range the counter is bounded to (R16). -/
def CurInRange (s : State) : Prop := s.cur.toNat ≤ 9

/-- The wait timer runs while PH is WAIT and is idle otherwise (R23, R85; between steps, log entry 5). -/
def TimerMatchesPhase (s : State) : Prop := s.wt = if s.ph = phaseWait then .running else .idle

/-- SEG shows CUR in WAIT and ADV, and the digit before CUR in LOG and APPLY, where it is only known once CUR has left 0 (R26,
R27). -/
def SegMatchesPhase (s : State) : Prop :=
  ((s.ph = phaseWait ∨ s.ph = phaseAdv) → romRead s.cur = some s.seg) ∧
  ((s.ph = phaseLog ∨ s.ph = phaseApply) → s.cur ≠ 0#4 → romRead (s.cur - 1#4) = some s.seg)

/-- The invariant of the states the block reaches; it says something of the sequencer, so only of COMPOSED (R16, R26). -/
def SequencerInv (s : State) : Prop :=
  s.cfg = .composed → CurInRange s ∧ TimerMatchesPhase s ∧ SegMatchesPhase s

/-- `n` steps, stopping at the first that answers no next state: the host's run of the machine, over `step` itself. -/
def runSteps : Nat → State → Host.Outcome State Fault Refusal
  | 0, s => .next s
  | n + 1, s =>
    match step s with
    | .next t => runSteps n t
    | .fault r => .fault r
    | .refused r => .refused r

/-- The environment during one tick whose WAIT is held for `hold` steps before TIMER_DONE comes (R78, R84). -/
def tickSlots (hold : Nat) : List EnvSlot :=
  [.quiet, .quiet] ++ List.replicate hold .quiet ++ [.timer, .quiet]

/-- The environment during one tick after another, with the holds of their WAITs. -/
def ticksSlots (holds : List Nat) : List EnvSlot := holds.flatMap tickSlots

/-- No RESET is asserted in a schedule ("A claim about uninterrupted runs must assume no RESET", D9). -/
def Uninterrupted (slots : List EnvSlot) : Prop := ∀ slot ∈ slots, slot.reset = none

/-- The digits logged by `n` LOGs that start at the digit `c` (R88, R89). -/
def displayedFrom (c : Nat) (n : Nat) : List ConsoleEvent :=
  (List.range n).map fun i => .disp (BitVec.ofNat 4 ((c + i) % Config.modulus))

/-- The state after `k` steps when the environment does `E j` at step `j`, without end. -/
def stateUnder (E : Nat → EnvSlot) (s : State) : Nat → State
  | 0 => s
  | k + 1 =>
    match step { stateUnder E s k with env := [E k] } with
    | .next t => t
    | .fault _ => stateUnder E s k
    | .refused _ => stateUnder E s k

/-- Weak fairness of the timer: whenever PH is WAIT, TIMER_DONE comes at that step or a later one (R126). -/
def TimerFair (E : Nat → EnvSlot) (s : State) : Prop :=
  ∀ k, (stateUnder E s k).ph = phaseWait → ∃ j, k ≤ j ∧ (E j).timerDone = true

/-- No RESET is ever asserted. -/
def NeverReset (E : Nat → EnvSlot) : Prop := ∀ k, (E k).reset = none

end Sys2Proof.Machine
end

