-- ==== Sys2Proof/Certificates/Slice0/Obligations.lean ====
section
/-! DEFINITION. The statements about SEG7-MOD10, for the provers. Each names the rule of spec/ it formalises; the environment's schedule `env` and its slots are the model's form of R128 (log entry 3). A rule that the spec itself marks "[derived: ...]" is its own inference, and the statement says so. -/

open Sys2Proof Sys2Proof.Machine

/-! ## Encodings -/

/-- Every operation the encodings carry is given back by the decoder from its encoded form, and every value of either format is
the encoded form of what it decodes to (R52, marked derived by the spec: "the decoder is total and unambiguous"). Read as a
number of the field's own width (R55), the encoded form decodes to the operation too. -/
def Obligations.DecodeAndEncodeAreInverse : Prop :=
  (∀ i : Instr, i.wellFormed = true →
    decode (encode i) = i ∧ decodeTableWord (encode i).width (encode i).value = some i) ∧
  (∀ w : OpWord, (decode w).wellFormed = true ∧ encode (decode w) = w)

/-- Each value of either format is accepted by the row of the table that its decoding names, and by no other row (R52, marked
derived by the spec: "Exactly one row matches each 4-bit value and each 2-bit phase"). -/
def Obligations.DecoderFollowsTheOneMatchingTableRow : Prop :=
  ∀ w : OpWord, ∃ r, tableRows.filter (fun row => row.accepts w) = [r] ∧ r.mnemonic = (decode w).mnemonic

/-- Words written out from the patterns of opcode_table.json decode to the operations they stand for (R50, R52). A sanity statement. -/
def Obligations.WrittenOutWordsDecode : Prop :=
  decode (.digit4 0b0000#4) = .enc0 ∧ decode (.digit4 0b0110#4) = .enc6 ∧ decode (.digit4 0b1001#4) = .enc9 ∧
  decode (.digit4 0b1010#4) = .encInvalid10to11 10#4 ∧ decode (.digit4 0b1111#4) = .encInvalid12to15 15#4 ∧
  decode (.phase2 0b00#2) = .log ∧ decode (.phase2 0b01#2) = .apply ∧ decode (.phase2 0b10#2) = .wait ∧
  decode (.phase2 0b11#2) = .adv

/-! ## The encoder -/

/-- ENC 0 to ENC 9 complete in every state: each has its rule's encoding and ROM word, writes that word to SEG and changes
nothing else; the words light exactly the segments the rules list, and the corner cases they name hold (R59 to R68). -/
def Obligations.EncRowsWriteTheirRomWords : Prop :=
  EncRow .enc0 0b0000#4 0b1111110#7 [.a, .b, .c, .d, .e, .f] ∧
  EncRow .enc1 0b0001#4 0b0110000#7 [.b, .c] ∧
  EncRow .enc2 0b0010#4 0b1101101#7 [.a, .b, .d, .e, .g] ∧
  EncRow .enc3 0b0011#4 0b1111001#7 [.a, .b, .c, .d, .g] ∧
  EncRow .enc4 0b0100#4 0b0110011#7 [.b, .c, .f, .g] ∧
  EncRow .enc5 0b0101#4 0b1011011#7 [.a, .c, .d, .f, .g] ∧
  EncRow .enc6 0b0110#4 0b0011111#7 [.c, .d, .e, .f, .g] ∧
  EncRow .enc7 0b0111#4 0b1110000#7 [.a, .b, .c] ∧
  EncRow .enc8 0b1000#4 0b1111111#7 [.a, .b, .c, .d, .e, .f, .g] ∧
  EncRow .enc9 0b1001#4 0b1110011#7 [.a, .b, .c, .f, .g] ∧
  ∀ d v, romRead d = some v → EncTableCorners d v

/-- ENC on an invalid digit completes in every state: it emits UNIMPL, keeps SEG and changes nothing else, and done twice it
emits two (R69). -/
def Obligations.EncOnInvalidDigitsReportsAndKeepsSegments : Prop :=
  ∀ (i : Instr) (d : Digit) (s : State), (i = .encInvalid10to11 d ∨ i = .encInvalid12to15 d) → i.wellFormed = true →
    decode (.digit4 d) = i ∧ romRead d = none ∧ encCondition d = some .invalidDigit ∧
    exec i s = .next { s with console := s.console ++ [.unimpl] } ∧
    exec i { s with console := s.console ++ [.unimpl] } = .next { s with console := s.console ++ [.unimpl, .unimpl] }

/-- ENC d, for every digit: the word `RomRead(d)` gives is written to SEG, and where it gives none UNIMPL is emitted; in both
cases nothing else changes (R71). -/
def Obligations.EncWritesTheWordOrRaisesInvalidDigit : Prop :=
  ∀ (d : Digit) (s : State),
    (∀ v, romRead d = some v → exec (decodeDigit d) s = .next { s with seg := v }) ∧
    (romRead d = none → exec (decodeDigit d) s = .next { s with console := s.console ++ [.unimpl] }) ∧
    (d.toNat ≤ 9 ↔ ∃ v, romRead d = some v) ∧
    (encCondition d = some .invalidDigit ↔ 10 ≤ d.toNat)

/-- The valid signal of an ENC step is `d <= 9`, in bits `not d[3] or (not d[2] and not d[1])`, it equals `RomRead(d) != none`,
and the step that has it emits nothing while the step that lacks it leaves SEG alone (R46 and R70, both marked derived by the
spec). -/
def Obligations.ValidSignalDecidesTheEncStep : Prop :=
  ∀ (d : Digit) (s : State), ∃ t, exec (decodeDigit d) s = .next t ∧
    (digitValid d = true ↔ d.toNat ≤ 9) ∧ digitValidBits d = digitValid d ∧ (romRead d).isSome = digitValid d ∧
    (digitValid d = true → t.console = s.console) ∧ (digitValid d = false → t.seg = s.seg)

/-- For a valid digit SEG after ENC depends on the digit alone: it is the digit's ROM word whatever SEG held before (R72,
marked derived by the spec from R71 and R33). -/
def Obligations.EncSetsAllSevenSegmentsWhateverTheyHeld : Prop :=
  ∀ (d : Digit) (v : SegVec), romRead d = some v → ∀ s s' : State, ∃ t t',
    exec (decodeDigit d) s = .next t ∧ exec (decodeDigit d) s' = .next t' ∧
    (∀ x : Segment, segmentLit t.seg x = segmentLit v x) ∧ t'.seg = t.seg

/-- ENC done twice leaves SEG as done once; for an invalid digit SEG never changes and the console has two UNIMPL against one
(R73, marked derived by the spec from R71). -/
def Obligations.EncTwiceLeavesSegAsEncOnce : Prop :=
  ∀ (d : Digit) (s : State), ∃ t u, exec (decodeDigit d) s = .next t ∧ exec (decodeDigit d) t = .next u ∧
    u.seg = t.seg ∧ (∀ v, romRead d = some v → t.seg = v) ∧
    (romRead d = none → t.seg = s.seg ∧ t.console = s.console ++ [.unimpl] ∧
      u.console = s.console ++ [.unimpl, .unimpl])

/-- Distinct valid digits always produce distinct segment vectors, and the lit-segment counts are 6, 2, 5, 5, 4, 5, 5, 3, 7 and
5 for digits 0 to 9 (R76, marked derived by the spec from R59 to R68). -/
def Obligations.ValidDigitsAreToldApartBySegments : Prop :=
  ∀ (d e : Digit) (s s' t t' : State), d.toNat ≤ 9 → e.toNat ≤ 9 →
    exec (decodeDigit d) s = .next t → exec (decodeDigit e) s' = .next t' →
    (t.seg = t'.seg → d = e) ∧ some (litSegments t.seg).length = [6, 2, 5, 5, 4, 5, 5, 3, 7, 5][d.toNat]?

/-- The frame of ENC, for every row and operand: CUR, PH, WT, the configuration and the environment's schedule never change;
a valid digit leaves the console stream alone and an invalid one leaves SEG alone (R71 "Changes nothing else"). -/
def Obligations.EncFrame : Prop :=
  ∀ (i : Instr) (s t : State), IsEnc i → exec i s = .next t →
    t.cur = s.cur ∧ t.ph = s.ph ∧ t.wt = s.wt ∧ t.cfg = s.cfg ∧ t.env = s.env ∧
    (i.wellFormed = true ∧ (∃ d, i = .encInvalid10to11 d ∨ i = .encInvalid12to15 d) ∧ t.seg = s.seg ∧
        t.console = s.console ++ [.unimpl] ∨
      (∀ d, i ≠ .encInvalid10to11 d ∧ i ≠ .encInvalid12to15 d) ∧ t.console = s.console)

/-! ## The sequencer -/

/-- LOG completes in every state: it emits DISP(CUR), sets PH to APPLY and changes nothing else (R80). -/
def Obligations.LogEmitsTheDigitAndMovesToApply : Prop :=
  ∀ s : State, exec .log s = .next { s with console := s.console ++ [.disp s.cur], ph := 0b01#2 }

/-- APPLY completes in every state. With CUR at most 9 it writes CUR's ROM word to SEG, emits nothing and sets PH to WAIT; with
CUR in 10 to 15 it leaves SEG and emits UNIMPL. It keeps CUR (R82). -/
def Obligations.ApplyRendersTheCurrentDigit : Prop :=
  ∀ s : State, ∃ t, exec .apply s = .next t ∧ t.ph = 0b10#2 ∧ t.cur = s.cur ∧ t.cfg = s.cfg ∧ t.env = s.env ∧
    (s.cur.toNat ≤ 9 → romRead s.cur = some t.seg ∧ t.console = s.console) ∧
    (10 ≤ s.cur.toNat → t.seg = s.seg ∧ t.console = s.console ++ [.unimpl]) ∧
    exec (decodeDigit s.cur) s = .next { t with ph := s.ph, wt := s.wt }

/-- WAIT, at the step at which TIMER_DONE comes, completes: PH becomes ADV and CUR, SEG and the console stream keep their
values. While it does not come the block holds: nothing changes but that the environment's slot is used up (R84, less its
1000 ms; that a hold is a step that changes nothing is the model's form, log entry 6). -/
def Obligations.WaitHoldsUntilTimerDone : Prop :=
  ∀ (s : State) (slot : EnvSlot) (rest : List EnvSlot), s.cfg = .composed → s.ph = 0b10#2 → s.env = slot :: rest →
    slot.reset = none →
    (slot.timerDone = true → ∃ t, step s = .next t ∧ t.ph = 0b11#2 ∧ t.cur = s.cur ∧ t.seg = s.seg ∧
      t.console = s.console ∧ t.cfg = s.cfg ∧ t.env = rest) ∧
    (slot.timerDone = false → s.wt ≠ .done → step s = .next { s with env := rest })

/-- WAIT as an operation: with TIMER_DONE signalled it completes and PH becomes ADV; otherwise it leaves the state as it is (R84).
That the timer is idle afterwards and that a hold changes nothing are the model's readings (log entries 5 and 6). -/
def Obligations.WaitCompletesWithTheTimerDone : Prop :=
  ∀ s : State, (s.wt = .done → exec .wait s = .next { s with ph := 0b11#2, wt := .idle }) ∧
    (s.wt ≠ .done → exec .wait s = .next s)

/-- ADV completes in every state: CUR becomes its successor modulo 10 for 0 to 9 and 0 for 10 to 15, PH becomes LOG, and
nothing else changes (R86). -/
def Obligations.AdvCountsModuloTen : Prop :=
  ∀ s : State, ∃ c, exec .adv s = .next { s with cur := c, ph := 0b00#2 } ∧
    (s.cur.toNat ≤ 9 → c.toNat = (s.cur.toNat + 1) % 10) ∧ (10 ≤ s.cur.toNat → c = 0#4) ∧ c.toNat ≤ 9

/-- The frame of the four sequencer steps: which fields each may change (R80, R82, R84, R86). APPLY and WAIT also move the wait
timer (R85). -/
def Obligations.SequencerStepsFrame : Prop :=
  ∀ (i : Instr) (s t : State), exec i s = .next t →
    (i = .log → t.cur = s.cur ∧ t.seg = s.seg ∧ t.wt = s.wt ∧ t.cfg = s.cfg ∧ t.env = s.env) ∧
    (i = .apply → t.cur = s.cur ∧ t.cfg = s.cfg ∧ t.env = s.env ∧ (s.cur.toNat ≤ 9 → t.console = s.console) ∧
      (10 ≤ s.cur.toNat → t.seg = s.seg)) ∧
    (i = .wait → t.cur = s.cur ∧ t.seg = s.seg ∧ t.console = s.console ∧ t.cfg = s.cfg ∧ t.env = s.env) ∧
    (i = .adv → t.seg = s.seg ∧ t.wt = s.wt ∧ t.console = s.console ∧ t.cfg = s.cfg ∧ t.env = s.env)

/-! ## One step -/

/-- A step performs the decoded operation. In COMPOSED without RESET it is the operation PH selects, after TIMER_DONE, where it
comes while PH is WAIT, has been signalled; in ENCODER_ONLY it is ENC of the driven digit where `enc` is strobed, and nothing
otherwise (R52, marked derived by the spec; R75). The slot of the environment is used up; with no slot left the environment does
nothing, which is the model's choice (log entry 3). -/
def Obligations.StepPerformsTheDecodedOperation : Prop :=
  ∀ s : State,
    (∀ slot rest, s.env = slot :: rest → slot.reset = none →
      (s.cfg = .composed → (slot.timerDone = true ∧ s.ph = 0b10#2) →
        step s = exec (decode (.phase2 s.ph)) { s with env := rest, wt := .done }) ∧
      (s.cfg = .composed → ¬ (slot.timerDone = true ∧ s.ph = 0b10#2) →
        step s = exec (decode (.phase2 s.ph)) { s with env := rest }) ∧
      (s.cfg = .encoderOnly → ∀ d, slot.strobe = some d →
        step s = exec (decode (.digit4 d)) { s with env := rest }) ∧
      (s.cfg = .encoderOnly → slot.strobe = none → step s = .next { s with env := rest })) ∧
    (s.env = [] →
      (s.cfg = .composed → step s = exec (decode (.phase2 s.ph)) s) ∧
      (s.cfg = .encoderOnly → step s = .next s))

/-- Placing a word makes the next step perform its operation, with CUR, SEG and the console stream as they were (the model's
loading device, log entry 11). -/
def Obligations.PlacedWordRunsNext : Prop :=
  ∀ (w : OpWord) (s : State), ∃ s', step (placeWord w s) = exec (decode w) s' ∧ s'.cur = s.cur ∧ s'.seg = s.seg ∧
    s'.console = s.console ∧ s'.env = s.env ∧ (∀ p, w = .phase2 p → s'.ph = p) ∧
    (w = .phase2 phaseWait → s'.wt = .done)

/-- The block never stops: from every state, under every schedule, every number of steps gives a next state; and APPLY goes on to
WAIT although it raises InvalidDigit (R93). A console drop cannot stop it either: no step reads the sink (R94). -/
def Obligations.NoConditionStopsTheBlock : Prop :=
  (∀ (n : Nat) (s : State), ∃ t, runSteps n s = .next t) ∧
  (∀ s : State, s.cfg = .composed → (currentSlot s).reset = none → s.ph = phaseApply →
    encCondition s.cur = some .invalidDigit → ∃ t, step s = .next t ∧ t.ph = phaseWait ∧ t.cur = s.cur ∧ t.seg = s.seg)

/-- PH advances by one modulo 4 in every step of the sequencer, WAIT's being the one that TIMER_DONE ends: LOG, APPLY, WAIT, ADV,
LOG. Only RESET changes PH otherwise, to LOG (R79). -/
def Obligations.PhaseAdvancesInAFixedCycle : Prop :=
  ∀ (s t : State), s.cfg = .composed → step s = .next t →
    ((currentSlot s).reset = none → (s.ph = phaseWait → (currentSlot s).timerDone = true ∨ s.wt = .done) →
      t.ph = s.ph + 1#2 ∧
      (s.ph = phaseLog → t.ph = phaseApply) ∧ (s.ph = phaseApply → t.ph = phaseWait) ∧
      (s.ph = phaseWait → t.ph = phaseAdv) ∧ (s.ph = phaseAdv → t.ph = phaseLog)) ∧
    (t.ph ≠ s.ph → t.ph = s.ph + 1#2 ∨ (t.ph = phaseLog ∧ (currentSlot s).reset ≠ none))

/-- What RESET leaves: in COMPOSED CUR = 0, PH = LOG and WT idle; in ENCODER_ONLY nothing is written to them; SEG keeps its value
but at power-on, where it has any value the environment draws; no event is emitted (R111). -/
def Obligations.ResetLeavesTheResetValues : Prop :=
  ∀ (s : State) (k : ResetKind), (currentSlot s).reset = some k → ∃ t, step s = .next t ∧
    (s.cfg = .composed → t.cur = 0#4 ∧ t.ph = 0b00#2 ∧ t.wt = .idle) ∧
    (s.cfg = .encoderOnly → t.cur = s.cur ∧ t.ph = s.ph ∧ t.wt = s.wt) ∧
    (k = .warm → t.seg = s.seg) ∧ (∀ v, k = .powerOn v → t.seg = v) ∧
    t.console <+: s.console

/-- RESET comes in any state and wins whatever else comes in the same instant: the operation and TIMER_DONE have no effect at all,
and what is left is the state before with the reset values (R112). -/
def Obligations.ResetHasPriorityAndKeepsSeg : Prop :=
  ∀ (s : State) (slot : EnvSlot) (rest : List EnvSlot), s.env = slot :: rest → slot.reset = some .warm →
    (s.cfg = .composed → step s = .next { s with cur := 0#4, ph := 0b00#2, wt := .idle, env := rest }) ∧
    (s.cfg = .encoderOnly → step s = .next { s with env := rest })

/-- Power-on is a RESET (R113) after which SEG is unspecified, every value the environment draws, and the console stream is empty
of the block's events (R115, marked derived by the spec). -/
def Obligations.PowerOnResetsWithAnySegValue : Prop :=
  ∀ (s : State) (slot : EnvSlot) (rest : List EnvSlot) (seg : SegVec), s.env = slot :: rest →
    slot.reset = some (.powerOn seg) →
    (s.cfg = .composed → step s = .next { State.powerOn .composed seg with env := rest }) ∧
    (s.cfg = .encoderOnly → step s = .next { s with seg := seg, console := [], env := rest })

/-- After power-on, whatever SEG came up as, the first step is LOG of tick 0, which emits DISP(0), and the second APPLY, which
writes 0x7E (R114, marked derived by the spec from R111). -/
def Obligations.EntryPointIsLogOfTickZero : Prop :=
  ∀ seg : SegVec, ∃ t u, step (State.powerOn .composed seg) = .next t ∧ step t = .next u ∧
    t.console = [.disp 0#4] ∧ t.seg = seg ∧ t.ph = 0b01#2 ∧ u.console = [.disp 0#4] ∧ u.seg = 0x7E#7 ∧ u.ph = 0b10#2 ∧
    u.cur = 0#4

/-- Only power-on, ENC of a valid digit, and APPLY with CUR at most 9 change SEG, and the last two leave it at the digit's ROM
word (R18, R33). -/
def Obligations.OnlyEncAndPowerOnChangeSeg : Prop :=
  ∀ s t : State, step s = .next t → t.seg ≠ s.seg →
    (∃ v, (currentSlot s).reset = some (.powerOn v) ∧ t.seg = v) ∨
    (s.cfg = .composed ∧ (currentSlot s).reset = none ∧ s.ph = phaseApply ∧ s.cur.toNat ≤ 9 ∧ romRead s.cur = some t.seg) ∨
    (s.cfg = .encoderOnly ∧ (currentSlot s).reset = none ∧
      ∃ d, (currentSlot s).strobe = some d ∧ d.toNat ≤ 9 ∧ romRead d = some t.seg)

/-- Only ADV and RESET change CUR, and the configuration never changes (R15, R25). -/
def Obligations.OnlyAdvAndResetChangeCur : Prop :=
  ∀ s t : State, step s = .next t →
    t.cfg = s.cfg ∧ (t.cur ≠ s.cur → s.cfg = .composed ∧
      ((∃ k, (currentSlot s).reset = some k ∧ t.cur = 0#4) ∨
       ((currentSlot s).reset = none ∧ s.ph = phaseAdv ∧ (s.cur.toNat < 9 ∧ t.cur.toNat = s.cur.toNat + 1 ∨
          9 ≤ s.cur.toNat ∧ t.cur = 0#4))))

/-- A step adds at most one event to the console stream and, but for power-on, removes none: DISP(CUR) in LOG, UNIMPL for an
ENC on a digit of 10 to 15, and nothing otherwise; RESET emits none (R24, R91, R97). -/
def Obligations.EveryEventHasItsCause : Prop :=
  ∀ s t : State, step s = .next t → (∀ v, (currentSlot s).reset ≠ some (.powerOn v)) →
    t.console = s.console ∨
    ((currentSlot s).reset = none ∧
      ((s.cfg = .composed ∧ s.ph = phaseLog ∧ t.console = s.console ++ [.disp s.cur]) ∨
       (s.cfg = .composed ∧ s.ph = phaseApply ∧ 10 ≤ s.cur.toNat ∧ t.console = s.console ++ [.unimpl]) ∨
       (s.cfg = .encoderOnly ∧ (∃ d, (currentSlot s).strobe = some d ∧ 10 ≤ d.toNat) ∧
          t.console = s.console ++ [.unimpl])))

/-- In ENCODER_ONLY the sequencer's registers are absent: a step neither changes CUR, PH and WT nor lets them be seen. Two
blocks that look alike and are driven alike still look alike after a step (R14, R127; that the fields are there at all is log entry 7). -/
def Obligations.EncoderOnlyHasNoSequencer : Prop :=
  ∀ s s' t t' : State, s.cfg = .encoderOnly → observe s = observe s' → s.env = s'.env →
    step s = .next t → step s' = .next t' →
    t.cur = s.cur ∧ t.ph = s.ph ∧ t.wt = s.wt ∧ observe t = observe t' ∧ t.env = t'.env

/-- A harness that requests ENC of an integer: 0 to 9 write the digit's ROM word, 10 to 15 emit UNIMPL, and any other integer is
refused, so the block does nothing; nothing is truncated (R74; that a refused integer is a step without a strobe is the model's
form of D4's "refused inputs have no step"). -/
def Obligations.HarnessIntegersAreRefusedNotTruncated : Prop :=
  ∀ (n : Int) (s : State) (rest : List EnvSlot), s.cfg = .encoderOnly → s.env = harnessRequest n :: rest →
    (0 ≤ n → n ≤ 9 → ∃ (d : Digit) (v : SegVec), (d.toNat : Int) = n ∧ romRead d = some v ∧ step s = .next { s with seg := v, env := rest }) ∧
    (10 ≤ n → n ≤ 15 → step s = .next { s with console := s.console ++ [.unimpl], env := rest }) ∧
    (n < 0 ∨ 15 < n → step s = .next { s with env := rest })

/-! ## Reachable states -/

/-- The invariant holds right after power-on, for either configuration and every value of SEG, and so of `State.reset`. -/
def Obligations.PowerOnMeetsTheInvariant : Prop :=
  (∀ (cfg : Configuration) (seg : SegVec) (env : List EnvSlot), SequencerInv { State.powerOn cfg seg with env := env }) ∧
  SequencerInv State.reset ∧ Launch State.reset

/-- Every step keeps the invariant: CUR at most 9, the timer running exactly in WAIT, SEG showing CUR in WAIT and ADV and the
digit before it in LOG and APPLY (R16, R26 and R27, all marked derived by the spec; the timer's part is log entry 5). -/
def Obligations.EveryStepKeepsTheInvariant : Prop :=
  ∀ s t : State, SequencerInv s → step s = .next t → SequencerInv t

/-- CUR is at most 9 in every state reachable from power-on, whatever the environment does, and a COMPOSED block never emits
UNIMPL (R16 and R83, both marked derived by the spec). -/
def Obligations.ComposedRunsStayInRangeAndNeverEmitUnimpl : Prop :=
  ∀ (seg : SegVec) (env : List EnvSlot) (n : Nat) (t : State),
    runSteps n { State.powerOn .composed seg with env := env } = .next t →
    t.cur.toNat ≤ 9 ∧ ConsoleEvent.unimpl ∉ t.console

/-- The triples (CUR, PH, SEG) reachable from power-on in COMPOSED are exactly those of R26 (which the spec marks derived): with
CUR = 0 in LOG and APPLY SEG may be anything, since it may be what SEG came up as. -/
def Obligations.ReachableTriplesAreExactlyThese : Prop :=
  ∀ (d : Digit) (p : PhaseCode) (v : SegVec),
    (∃ seg env n t, runSteps n { State.powerOn .composed seg with env := env } = .next t ∧
      t.cur = d ∧ t.ph = p ∧ t.seg = v) ↔
    (d.toNat ≤ 9 ∧ ((p = phaseWait ∨ p = phaseAdv) → romRead d = some v) ∧
      ((p = phaseLog ∨ p = phaseApply) → d = 0#4 ∨ romRead (d - 1#4) = some v))

/-- SEG lags CUR: once SEG shows CUR, after ADV and until the next APPLY it shows the digit before, which is never CUR's; and
APPLY makes it show CUR again (R27 and R120, both marked derived by the spec). -/
def Obligations.SegLagsCurUntilApply : Prop :=
  ∀ s : State, romRead s.cur = some s.seg → ∃ t u w,
    exec .adv s = .next t ∧ exec .log t = .next u ∧ exec .apply u = .next w ∧
    t.seg = s.seg ∧ u.seg = s.seg ∧ u.cur = t.cur ∧ romRead t.cur ≠ some t.seg ∧ romRead u.cur ≠ some u.seg ∧
    w.cur = t.cur ∧ romRead w.cur = some w.seg

/-! ## Runs -/

/-- n complete ticks, whatever time their WAITs take: from CUR = c in 0 to 9 and PH = LOG they leave CUR = (c + n) mod 10 and
PH = LOG, log the digits c, c + 1, ... mod 10 once each in that order, and leave SEG at the last one's ROM word (R88, marked
derived by the spec from R86 and R79). -/
def Obligations.TicksCountModuloTen : Prop :=
  ∀ (holds : List Nat) (s : State) (rest : List EnvSlot), s.cfg = .composed → s.cur.toNat ≤ 9 → s.ph = phaseLog →
    s.env = ticksSlots holds ++ rest →
    ∃ t, runSteps (ticksSlots holds).length s = .next t ∧
      t.cur.toNat = (s.cur.toNat + holds.length) % 10 ∧ t.ph = phaseLog ∧ t.cfg = .composed ∧ t.env = rest ∧
      t.console = s.console ++ displayedFrom s.cur.toNat holds.length ∧
      (holds = [] → t.seg = s.seg) ∧
      (holds ≠ [] → romRead (BitVec.ofNat 4 ((s.cur.toNat + holds.length - 1) % 10)) = some t.seg)

/-- Tick k after power-on: its LOG emits DISP(k mod 10), its APPLY writes ROM_WORD(k mod 10), its ADV leaves
CUR = (k + 1) mod 10 (R89, marked derived by the spec from R88). `holds` has the k earlier ticks' waits. -/
def Obligations.TickKShowsKModTen : Prop :=
  ∀ (seg : SegVec) (holds : List Nat) (hold : Nat) (rest : List EnvSlot),
    ∃ a b c e, runSteps (ticksSlots holds).length
        { State.powerOn .composed seg with env := ticksSlots holds ++ tickSlots hold ++ rest } = .next a ∧
      step a = .next b ∧ step b = .next c ∧ runSteps (hold + 2) c = .next e ∧
      b.console = a.console ++ [.disp (BitVec.ofNat 4 (holds.length % 10))] ∧
      romRead (BitVec.ofNat 4 (holds.length % 10)) = some c.seg ∧
      e.cur.toNat = (holds.length + 1) % 10 ∧ e.ph = phaseLog ∧ e.env = rest

/-- No digit is skipped or repeated, whatever the environment does short of RESET: after any number of steps the events logged
are c, c + 1, ... mod 10 in order, and CUR is the next digit to log in LOG and the last one logged otherwise (the order of R88, which the spec marks
derived). -/
def Obligations.DigitsAreLoggedInOrderWhateverTheTimerDoes : Prop :=
  ∀ (slots : List EnvSlot) (s t : State), s.cfg = .composed → s.cur.toNat ≤ 9 → s.ph = phaseLog →
    Uninterrupted slots → s.env = slots → runSteps slots.length s = .next t →
    ∃ n, t.console = s.console ++ displayedFrom s.cur.toNat n ∧
      (t.ph = phaseLog → t.cur.toNat = (s.cur.toNat + n) % 10) ∧
      (t.ph ≠ phaseLog → 1 ≤ n ∧ t.cur.toNat = (s.cur.toNat + n - 1) % 10)

/-- Under the timer's fairness (R126) and without RESET, every digit is logged and rendered again and again, from every launch
state (R90, marked derived by the spec). -/
def Obligations.EveryDigitIsShownForEverUnderFairness : Prop :=
  ∀ (E : Nat → EnvSlot) (s : State), s.cfg = .composed → Launch s → NeverReset E → TimerFair E s →
    ∀ (d : Digit), d.toNat ≤ 9 → ∀ k, ∃ j, k ≤ j ∧
      (stateUnder E s j).ph = phaseLog ∧ (stateUnder E s j).cur = d ∧
      (stateUnder E s (j + 1)).console = (stateUnder E s j).console ++ [.disp d] ∧
      romRead d = some (stateUnder E s (j + 2)).seg

/-- `RUN n`, a trace of n TICKs, may stand where PH is LOG and has the effect of n ticks; TICK may stand nowhere else (R57; how a
trace drives the environment is the model's choice, log entry 16). -/
def Obligations.RunExpandsToTicksAtLog : Prop :=
  ∀ (s : State),
    (s.cfg = .composed → s.ph = phaseLog → s.cur.toNat ≤ 9 → ∀ n, ∃ t, runTrace [.run n] s = some t ∧
      runTrace (List.replicate n .tick) s = some t ∧ t.ph = phaseLog ∧ t.cur.toNat = (s.cur.toNat + n) % 10 ∧
      t.env = s.env ∧ t.console = s.console ++ displayedFrom s.cur.toNat n) ∧
    (s.cfg ≠ .composed ∨ s.ph ≠ phaseLog → runTrace [.tick] s = none)

/-! ## What the environment sees -/

/-- What can reach the console of an emitted stream is every subsequence of it, in emission order, and nothing else; an event not
taken is the condition ConsoleDrop, code 2 (R94). -/
def Obligations.ConsoleMayShowAnySubsequence : Prop :=
  (∀ (stream shown : List ConsoleEvent), shown.Sublist stream ↔ ∃ takes, delivered takes stream = shown) ∧
  (∀ taken, (sinkCondition taken).map conditionCode = if taken then none else some 2)

/-- The text of a console line: "Displaying number: " and the digit in decimal, or "Unimplemented", then CONSOLE_EOL; the
characters are ASCII, which the spec has from general knowledge (R58, log entry 17). -/
def Obligations.ConsoleLinesReadAsTheRuleSays : Prop :=
  ∀ (eol : List Char),
    (∀ d : Digit, eventLine eol (.disp d) = ("Displaying number: " ++ toString d.toNat).toList ++ eol) ∧
    eventLine eol .unimpl = "Unimplemented".toList ++ eol ∧
    ∀ e, ∀ code ∈ asciiCodes (eventText e), code < 128

/-- The line of each segment carries LIT_LEVEL when the segment's bit of SEG is 1 and the opposite level when it is 0, on the
pin PIN_MAP gives it; states with the same SEG have the same level on every pin (R102). -/
def Obligations.OutputPinsFollowSeg : Prop :=
  ∀ (m : PinMap) (lit : Level) (s : State), PinMapDistinct m →
    pinLevel m lit s (pinOf m .a) = some (if s.seg.getLsbD 6 then lit else oppositeLevel lit) ∧
    pinLevel m lit s (pinOf m .b) = some (if s.seg.getLsbD 5 then lit else oppositeLevel lit) ∧
    pinLevel m lit s (pinOf m .c) = some (if s.seg.getLsbD 4 then lit else oppositeLevel lit) ∧
    pinLevel m lit s (pinOf m .d) = some (if s.seg.getLsbD 3 then lit else oppositeLevel lit) ∧
    pinLevel m lit s (pinOf m .e) = some (if s.seg.getLsbD 2 then lit else oppositeLevel lit) ∧
    pinLevel m lit s (pinOf m .f) = some (if s.seg.getLsbD 1 then lit else oppositeLevel lit) ∧
    pinLevel m lit s (pinOf m .g) = some (if s.seg.getLsbD 0 then lit else oppositeLevel lit) ∧
    oppositeLevel lit ≠ lit ∧
    ∀ t pin, t.seg = s.seg → pinLevel m lit t pin = pinLevel m lit s pin
end

