-- ==== Sys2Proof/Laws/State.lean ====
section
/-! SUPPORT. One lemma for each field after each shared operation, all true by unfolding, so that no later proof unfolds a record update. -/

namespace Sys2Proof.Machine

section segWrite
variable (v : SegVec) (s : State)
@[simp] theorem segWrite_cfg : (segWrite v s).cfg = s.cfg := rfl
@[simp] theorem segWrite_cur : (segWrite v s).cur = s.cur := rfl
@[simp] theorem segWrite_ph : (segWrite v s).ph = s.ph := rfl
@[simp] theorem segWrite_seg : (segWrite v s).seg = v := rfl
@[simp] theorem segWrite_wt : (segWrite v s).wt = s.wt := rfl
@[simp] theorem segWrite_console : (segWrite v s).console = s.console := rfl
@[simp] theorem segWrite_env : (segWrite v s).env = s.env := rfl
end segWrite

section emit
variable (e : ConsoleEvent) (s : State)
@[simp] theorem emit_cfg : (emit e s).cfg = s.cfg := rfl
@[simp] theorem emit_cur : (emit e s).cur = s.cur := rfl
@[simp] theorem emit_ph : (emit e s).ph = s.ph := rfl
@[simp] theorem emit_seg : (emit e s).seg = s.seg := rfl
@[simp] theorem emit_wt : (emit e s).wt = s.wt := rfl
@[simp] theorem emit_console : (emit e s).console = s.console ++ [e] := rfl
@[simp] theorem emit_env : (emit e s).env = s.env := rfl
end emit

section setPhase
variable (p : PhaseCode) (s : State)
@[simp] theorem setPhase_cfg : (setPhase p s).cfg = s.cfg := rfl
@[simp] theorem setPhase_cur : (setPhase p s).cur = s.cur := rfl
@[simp] theorem setPhase_ph : (setPhase p s).ph = p := rfl
@[simp] theorem setPhase_seg : (setPhase p s).seg = s.seg := rfl
@[simp] theorem setPhase_wt : (setPhase p s).wt = s.wt := rfl
@[simp] theorem setPhase_console : (setPhase p s).console = s.console := rfl
@[simp] theorem setPhase_env : (setPhase p s).env = s.env := rfl
end setPhase

section wait
variable (s : State)
@[simp] theorem enterWait_cfg : (enterWait s).cfg = s.cfg := rfl
@[simp] theorem enterWait_cur : (enterWait s).cur = s.cur := rfl
@[simp] theorem enterWait_ph : (enterWait s).ph = phaseWait := rfl
@[simp] theorem enterWait_seg : (enterWait s).seg = s.seg := rfl
@[simp] theorem enterWait_wt : (enterWait s).wt = .running := rfl
@[simp] theorem enterWait_console : (enterWait s).console = s.console := rfl
@[simp] theorem enterWait_env : (enterWait s).env = s.env := rfl
@[simp] theorem leaveWait_cfg : (leaveWait s).cfg = s.cfg := rfl
@[simp] theorem leaveWait_cur : (leaveWait s).cur = s.cur := rfl
@[simp] theorem leaveWait_ph : (leaveWait s).ph = phaseAdv := rfl
@[simp] theorem leaveWait_seg : (leaveWait s).seg = s.seg := rfl
@[simp] theorem leaveWait_wt : (leaveWait s).wt = .idle := rfl
@[simp] theorem leaveWait_console : (leaveWait s).console = s.console := rfl
@[simp] theorem leaveWait_env : (leaveWait s).env = s.env := rfl
end wait

section timerEvent
variable (s : State)
@[simp] theorem timerEvent_cfg : (timerEvent s).cfg = s.cfg := by unfold timerEvent; split <;> rfl
@[simp] theorem timerEvent_cur : (timerEvent s).cur = s.cur := by unfold timerEvent; split <;> rfl
@[simp] theorem timerEvent_ph : (timerEvent s).ph = s.ph := by unfold timerEvent; split <;> rfl
@[simp] theorem timerEvent_seg : (timerEvent s).seg = s.seg := by unfold timerEvent; split <;> rfl
@[simp] theorem timerEvent_console : (timerEvent s).console = s.console := by unfold timerEvent; split <;> rfl
@[simp] theorem timerEvent_env : (timerEvent s).env = s.env := by unfold timerEvent; split <;> rfl
@[simp] theorem timerEvent_wt : (timerEvent s).wt = if s.ph = phaseWait then .done else s.wt := by
  unfold timerEvent; split <;> rfl
end timerEvent

end Sys2Proof.Machine
end

