-- ==== Sys2Proof/Laws/Ops.lean ====
section
/-! SUPPORT. One lemma for each shared operation that says everything it can do: the ROM, ENC, the phases, the counter, and the reset events. -/

namespace Sys2Proof.Machine

/-- A phase code is one of the four (R50, R54). -/
theorem phase_cases (p : PhaseCode) : p = phaseLog ∨ p = phaseApply ∨ p = phaseWait ∨ p = phaseAdv := by
  revert p; decide

/-- The four codes differ (R50). -/
@[simp] theorem phaseLog_ne_phaseApply : (phaseLog = phaseApply) = False := by simp [phaseLog, phaseApply]
@[simp] theorem phaseLog_ne_phaseWait : (phaseLog = phaseWait) = False := by simp [phaseLog, phaseWait]
@[simp] theorem phaseLog_ne_phaseAdv : (phaseLog = phaseAdv) = False := by simp [phaseLog, phaseAdv]
@[simp] theorem phaseApply_ne_phaseLog : (phaseApply = phaseLog) = False := by simp [phaseApply, phaseLog]
@[simp] theorem phaseApply_ne_phaseWait : (phaseApply = phaseWait) = False := by simp [phaseApply, phaseWait]
@[simp] theorem phaseApply_ne_phaseAdv : (phaseApply = phaseAdv) = False := by simp [phaseApply, phaseAdv]
@[simp] theorem phaseWait_ne_phaseLog : (phaseWait = phaseLog) = False := by simp [phaseWait, phaseLog]
@[simp] theorem phaseWait_ne_phaseApply : (phaseWait = phaseApply) = False := by simp [phaseWait, phaseApply]
@[simp] theorem phaseWait_ne_phaseAdv : (phaseWait = phaseAdv) = False := by simp [phaseWait, phaseAdv]
@[simp] theorem phaseAdv_ne_phaseLog : (phaseAdv = phaseLog) = False := by simp [phaseAdv, phaseLog]
@[simp] theorem phaseAdv_ne_phaseApply : (phaseAdv = phaseApply) = False := by simp [phaseAdv, phaseApply]
@[simp] theorem phaseAdv_ne_phaseWait : (phaseAdv = phaseWait) = False := by simp [phaseAdv, phaseWait]

/-- The four phases decode to their steps (R50). -/
@[simp] theorem decodePhase_log : decodePhase phaseLog = .log := rfl
@[simp] theorem decodePhase_apply : decodePhase phaseApply = .apply := rfl
@[simp] theorem decodePhase_wait : decodePhase phaseWait = .wait := rfl
@[simp] theorem decodePhase_adv : decodePhase phaseAdv = .adv := rfl

/-- A digit has a ROM word exactly when it is valid (R30, R46). -/
theorem romRead_isSome_iff (d : Digit) : (romRead d).isSome = true ↔ d.toNat ≤ 9 := by
  revert d; decide

theorem romRead_eq_none_iff (d : Digit) : romRead d = none ↔ 10 ≤ d.toNat := by
  revert d; decide

/-- The words of two digits differ (R76). -/
theorem romRead_injective : ∀ d e : Digit, (romRead d).isSome = true → romRead d = romRead e → d = e := by
  decide

/-- ENC of a valid digit is SegWrite of its word (R71). -/
theorem enc_of_word {d : Digit} {v : SegVec} (h : romRead d = some v) (s : State) : enc d s = segWrite v s := by
  simp [enc, h]

/-- ENC of an invalid digit is Emit(UNIMPL) (R69, R71). -/
theorem enc_of_none {d : Digit} (h : romRead d = none) (s : State) : enc d s = emit .unimpl s := by
  simp [enc, h, raiseInvalidDigit]

/-- Everything ENC can do: write the digit's word, or report a digit that has none (R71). -/
theorem enc_cases (d : Digit) (s : State) :
    (∃ v, romRead d = some v ∧ enc d s = segWrite v s) ∨ (romRead d = none ∧ enc d s = emit .unimpl s) := by
  cases h : romRead d with
  | some v => exact .inl ⟨v, rfl, enc_of_word h s⟩
  | none => exact .inr ⟨rfl, enc_of_none h s⟩

section encFrame
variable (d : Digit) (s : State)
@[simp] theorem enc_cfg : (enc d s).cfg = s.cfg := by rcases enc_cases d s with ⟨v, -, h⟩ | ⟨-, h⟩ <;> simp [h]
@[simp] theorem enc_cur : (enc d s).cur = s.cur := by rcases enc_cases d s with ⟨v, -, h⟩ | ⟨-, h⟩ <;> simp [h]
@[simp] theorem enc_ph : (enc d s).ph = s.ph := by rcases enc_cases d s with ⟨v, -, h⟩ | ⟨-, h⟩ <;> simp [h]
@[simp] theorem enc_wt : (enc d s).wt = s.wt := by rcases enc_cases d s with ⟨v, -, h⟩ | ⟨-, h⟩ <;> simp [h]
@[simp] theorem enc_env : (enc d s).env = s.env := by rcases enc_cases d s with ⟨v, -, h⟩ | ⟨-, h⟩ <;> simp [h]
end encFrame

/-- ADV's successor stays a valid digit (R86). -/
theorem advanceDigit_le (c : Digit) : (advanceDigit c).toNat ≤ 9 := by revert c; decide

/-- On 0 to 9 ADV's successor is the successor modulo 10 (R87). -/
theorem advanceDigit_toNat : ∀ c : Digit, c.toNat ≤ 9 → (advanceDigit c).toNat = (c.toNat + 1) % 10 := by decide

/-- On 10 to 15 it is 0 (R86, D11). -/
theorem advanceDigit_of_invalid : ∀ c : Digit, 10 ≤ c.toNat → advanceDigit c = 0#4 := by decide

/-- RESET in COMPOSED (R111). -/
theorem warmReset_composed {s : State} (h : s.cfg = .composed) :
    warmReset s = { s with cur := 0#4, ph := phaseLog, wt := .idle } := by simp [warmReset, h, Config.curReset]

/-- RESET in ENCODER_ONLY writes nothing (R111). -/
theorem warmReset_encoderOnly {s : State} (h : s.cfg = .encoderOnly) : warmReset s = s := by simp [warmReset, h]

section warmResetFrame
variable (s : State)
@[simp] theorem warmReset_cfg : (warmReset s).cfg = s.cfg := by unfold warmReset; split <;> simp_all
@[simp] theorem warmReset_seg : (warmReset s).seg = s.seg := by unfold warmReset; split <;> rfl
@[simp] theorem warmReset_console : (warmReset s).console = s.console := by unfold warmReset; split <;> rfl
@[simp] theorem warmReset_env : (warmReset s).env = s.env := by unfold warmReset; split <;> rfl
@[simp] theorem powerOnReset_cfg (v : SegVec) : (powerOnReset v s).cfg = s.cfg := by simp [powerOnReset]
@[simp] theorem powerOnReset_seg (v : SegVec) : (powerOnReset v s).seg = v := rfl
@[simp] theorem powerOnReset_console (v : SegVec) : (powerOnReset v s).console = [] := rfl
@[simp] theorem powerOnReset_env (v : SegVec) : (powerOnReset v s).env = s.env := by simp [powerOnReset]
@[simp] theorem resetEvent_cfg (k : ResetKind) : (resetEvent k s).cfg = s.cfg := by cases k <;> simp [resetEvent]
@[simp] theorem resetEvent_env (k : ResetKind) : (resetEvent k s).env = s.env := by cases k <;> simp [resetEvent]
end warmResetFrame

/-- Either reset event gives a COMPOSED block's sequencer its reset values (R111, R115). -/
theorem resetEvent_composed {s : State} (h : s.cfg = .composed) (k : ResetKind) :
    (resetEvent k s).cur = 0#4 ∧ (resetEvent k s).ph = phaseLog ∧ (resetEvent k s).wt = .idle := by
  cases k <;> simp [resetEvent, powerOnReset, warmReset_composed h]

/-- Either reset event leaves an ENCODER_ONLY block's inert fields alone (R111). -/
theorem resetEvent_encoderOnly {s : State} (h : s.cfg = .encoderOnly) (k : ResetKind) :
    (resetEvent k s).cur = s.cur ∧ (resetEvent k s).ph = s.ph ∧ (resetEvent k s).wt = s.wt := by
  cases k <;> simp [resetEvent, powerOnReset, warmReset_encoderOnly h]

end Sys2Proof.Machine
end

