-- ==== Sys2Proof/Laws/Exec.lean ====
section
/-! SUPPORT. Every operation completes, and ENC on each digit is the row its digit selects. -/

namespace Sys2Proof.Machine

/-- What the decoded row of a digit does is ENC of that digit (R52, R71). -/
theorem exec_decodeDigit (d : Digit) (s : State) : exec (decodeDigit d) s = .next (enc d s) := by
  have rows : ∀ d : Digit, decodeDigit d ∈ [Instr.enc0, .enc1, .enc2, .enc3, .enc4, .enc5, .enc6, .enc7, .enc8, .enc9,
      .encInvalid10to11 d, .encInvalid12to15 d] ∧ encode (decodeDigit d) = .digit4 d := by decide
  obtain ⟨mem, back⟩ := rows d
  simp only [List.mem_cons, List.not_mem_nil, or_false] at mem
  rcases mem with h | h | h | h | h | h | h | h | h | h | h | h <;> rw [h] at back ⊢ <;>
    first
      | rfl
      | (simp only [encode, OpWord.digit4.injEq] at back; subst back; rfl)

/-- WAIT either takes TIMER_DONE or holds (R84). -/
theorem execWait_cases (s : State) :
    (s.wt = .done ∧ execWait s = .next (leaveWait s)) ∨ (s.wt ≠ .done ∧ execWait s = .next s) := by
  unfold execWait; cases h : s.wt <;> simp

/-- Every operation answers a next state (R93). -/
theorem exec_completes (i : Instr) (s : State) : ∃ t, exec i s = .next t := by
  cases i
  case wait => rcases execWait_cases s with ⟨-, h⟩ | ⟨-, h⟩ <;> exact ⟨_, h⟩
  all_goals exact ⟨_, rfl⟩

end Sys2Proof.Machine
end

