-- ==== Sys2Proof/Laws/PerInstr.lean ====
section
/-! SUPPORT. Statements made for each operation as syntax. TableRow: the encoded form of a well-formed operation is accepted by the row of the opcode table that bears its mnemonic. -/

namespace Sys2Proof.Laws.TableRow

/-- A well-formed operation's encoded form is accepted by a row of the table with the operation's mnemonic (R52). -/
def Statement (i : Instr) : Prop :=
  i.wellFormed = true → ∃ r ∈ tableRows, r.mnemonic = i.mnemonic ∧ r.accepts (encode i) = true

theorem enc0 : Statement .enc0 := fun _ => by decide
theorem enc1 : Statement .enc1 := fun _ => by decide
theorem enc2 : Statement .enc2 := fun _ => by decide
theorem enc3 : Statement .enc3 := fun _ => by decide
theorem enc4 : Statement .enc4 := fun _ => by decide
theorem enc5 : Statement .enc5 := fun _ => by decide
theorem enc6 : Statement .enc6 := fun _ => by decide
theorem enc7 : Statement .enc7 := fun _ => by decide
theorem enc8 : Statement .enc8 := fun _ => by decide
theorem enc9 : Statement .enc9 := fun _ => by decide
theorem encInvalid10to11 (d : Digit) : Statement (.encInvalid10to11 d) := by
  unfold Statement; revert d; decide
theorem encInvalid12to15 (d : Digit) : Statement (.encInvalid12to15 d) := by
  unfold Statement; revert d; decide
theorem log : Statement .log := fun _ => by decide
theorem apply : Statement .apply := fun _ => by decide
theorem wait : Statement .wait := fun _ => by decide
theorem adv : Statement .adv := fun _ => by decide

end Sys2Proof.Laws.TableRow
end

