-- ==== Sys2Proof/Laws/Step.lean ====
section
/-! SUPPORT. What one step can do, said once. -/

namespace Sys2Proof.Machine

section fetch
variable (s : State)
@[simp] theorem dropSlot_cfg : (dropSlot s).cfg = s.cfg := rfl
@[simp] theorem dropSlot_cur : (dropSlot s).cur = s.cur := rfl
@[simp] theorem dropSlot_ph : (dropSlot s).ph = s.ph := rfl
@[simp] theorem dropSlot_seg : (dropSlot s).seg = s.seg := rfl
@[simp] theorem dropSlot_wt : (dropSlot s).wt = s.wt := rfl
@[simp] theorem dropSlot_console : (dropSlot s).console = s.console := rfl
@[simp] theorem dropSlot_env : (dropSlot s).env = s.env.tail := rfl
end fetch

/-- TIMER_DONE means nothing outside WAIT (R84). -/
theorem sequencerInput_of_ne {s : State} (h : s.ph ≠ phaseWait) (slot : EnvSlot) : sequencerInput slot s = s := by
  simp [sequencerInput, timerEvent, h]

/-- Without RESET a COMPOSED block performs the step PH selects (R52). -/
theorem step_composed {s : State} (hc : s.cfg = .composed) (hr : (currentSlot s).reset = none) :
    step s = exec (decodePhase s.ph) (sequencerInput (currentSlot s) (dropSlot s)) := by
  simp [step, hr, fetchWord, hc, issueState, decode]

/-- Without RESET an ENCODER_ONLY block performs ENC of a strobed digit (R52, R75). -/
theorem step_strobe {s : State} (hc : s.cfg = .encoderOnly) (hr : (currentSlot s).reset = none) {d : Digit}
    (hs : (currentSlot s).strobe = some d) : step s = .next (enc d (dropSlot s)) := by
  simp [step, hr, fetchWord, hc, issueState, decode, hs, exec_decodeDigit]

/-- Without RESET and without a strobe an ENCODER_ONLY block does nothing (R75). -/
theorem step_no_strobe {s : State} (hc : s.cfg = .encoderOnly) (hr : (currentSlot s).reset = none)
    (hs : (currentSlot s).strobe = none) : step s = .next (dropSlot s) := by
  simp [step, hr, fetchWord, hc, issueState, hs]

/-- RESET wins over everything (R97). -/
theorem step_reset {s : State} {k : ResetKind} (hr : (currentSlot s).reset = some k) :
    step s = .next (resetEvent k (dropSlot s)) := by simp [step, hr]

/-- Everything a step can do: take a reset event; perform LOG, APPLY, a WAIT that ends, a WAIT that holds, or ADV; perform ENC of
a strobed digit; or, in ENCODER_ONLY without a strobe, nothing (R52, R75, R97). -/
theorem step_cases (s : State) :
    (∃ k, (currentSlot s).reset = some k ∧ step s = .next (resetEvent k (dropSlot s))) ∨
    ((currentSlot s).reset = none ∧
      ((s.cfg = .composed ∧ s.ph = phaseLog ∧
          step s = .next (setPhase phaseApply (emit (.disp s.cur) (dropSlot s)))) ∨
       (s.cfg = .composed ∧ s.ph = phaseApply ∧ step s = .next (enterWait (enc s.cur (dropSlot s)))) ∨
       (s.cfg = .composed ∧ s.ph = phaseWait ∧ ((currentSlot s).timerDone = true ∨ s.wt = .done) ∧
          step s = .next (leaveWait (dropSlot s))) ∨
       (s.cfg = .composed ∧ s.ph = phaseWait ∧ (currentSlot s).timerDone = false ∧ s.wt ≠ .done ∧
          step s = .next (dropSlot s)) ∨
       (s.cfg = .composed ∧ s.ph = phaseAdv ∧
          step s = .next (setPhase phaseLog { dropSlot s with cur := advanceDigit s.cur })) ∨
       (s.cfg = .encoderOnly ∧ ∃ d, (currentSlot s).strobe = some d ∧ step s = .next (enc d (dropSlot s))) ∨
       (s.cfg = .encoderOnly ∧ (currentSlot s).strobe = none ∧ step s = .next (dropSlot s)))) := by
  cases hr : (currentSlot s).reset with
  | some k => exact .inl ⟨k, rfl, step_reset hr⟩
  | none =>
    refine .inr ⟨rfl, ?_⟩
    cases hc : s.cfg with
    | composed =>
      have run := step_composed hc hr
      rcases phase_cases s.ph with hp | hp | hp | hp <;> rw [hp] at run
      · rw [sequencerInput_of_ne (by simp [hp])] at run
        exact .inl ⟨rfl, hp, run⟩
      · rw [sequencerInput_of_ne (by simp [hp])] at run
        exact .inr (.inl ⟨rfl, hp, run⟩)
      · cases ht : (currentSlot s).timerDone <;> cases hw : s.wt <;>
          simp [run, hp, exec, execWait, sequencerInput, timerEvent, ht, hw, leaveWait]
      · rw [sequencerInput_of_ne (by simp [hp])] at run
        exact .inr (.inr (.inr (.inr (.inl ⟨rfl, hp, run⟩))))
    | encoderOnly =>
      cases hs : (currentSlot s).strobe with
      | some d => simp [step_strobe hc hr hs]
      | none => simp [step_no_strobe hc hr hs]

/-- Every step answers a next state (R93). -/
theorem step_completes (s : State) : ∃ t, step s = .next t := by
  rcases step_cases s with ⟨k, -, h⟩ | ⟨-, h⟩
  · exact ⟨_, h⟩
  · rcases h with ⟨-, -, h⟩ | ⟨-, -, h⟩ | ⟨-, -, -, h⟩ | ⟨-, -, -, -, h⟩ | ⟨-, -, h⟩ | ⟨-, d, -, h⟩ | ⟨-, -, h⟩ <;>
      exact ⟨_, h⟩

end Sys2Proof.Machine
end

