-- ==== Sys2Proof/Laws/Run.lean ====
section
/-! SUPPORT. How runs compose, what a slot of the environment makes each phase do, and what one complete tick does. -/

namespace Sys2Proof.Machine

/-- A run whose first step is known. -/
theorem run_succ {s t : State} (h : step s = .next t) (n : Nat) : runSteps (n + 1) s = runSteps n t := by
  simp only [runSteps, h]

/-- A run of no steps. -/
@[simp] theorem run_zero (s : State) : runSteps 0 s = .next s := rfl

/-- `runSteps` is the host's run of the machine. -/
theorem core_run_eq_runSteps (n : Nat) (s : State) : Host.Core.run Sys2Proof.core n s = runSteps n s := by
  induction n generalizing s with
  | zero => rfl
  | succ n ih =>
    obtain ⟨t, ht⟩ := step_completes s
    have ht' : Sys2Proof.core.step s = .next t := ht
    rw [run_succ ht]
    simp only [Host.Core.run, ht']
    exact ih t

/-- A run of `m + n` steps is a run of `m` steps and then one of `n`. -/
theorem run_add {m : Nat} {s t : State} (h : runSteps m s = .next t) (n : Nat) :
    runSteps (m + n) s = runSteps n t := by
  induction m generalizing s with
  | zero => injection h with h; subst h; simp
  | succ m ih =>
    obtain ⟨u, hu⟩ := step_completes s
    rw [run_succ hu] at h
    rw [Nat.succ_add, run_succ hu, ih h]

/-- The environment's slot at the head of the schedule. -/
theorem currentSlot_cons {s : State} {slot : EnvSlot} {rest : List EnvSlot} (h : s.env = slot :: rest) :
    currentSlot s = slot := by simp [currentSlot, h]

theorem dropSlot_cons {s : State} {slot : EnvSlot} {rest : List EnvSlot} (h : s.env = slot :: rest) :
    dropSlot s = { s with env := rest } := by simp [dropSlot, h]

theorem dropSlot_nil {s : State} (h : s.env = []) : dropSlot s = s := by
  cases s; simp_all [dropSlot]

section phases
variable {s : State} {slot : EnvSlot} {rest : List EnvSlot}

/-- A step in phase LOG (R80). -/
theorem step_log (hc : s.cfg = .composed) (hp : s.ph = phaseLog) (he : s.env = slot :: rest) (hr : slot.reset = none) :
    step s = .next { s with ph := phaseApply, console := s.console ++ [.disp s.cur], env := rest } := by
  rw [step_composed hc (by rw [currentSlot_cons he, hr]), hp, sequencerInput_of_ne (by simp [hp]), dropSlot_cons he]
  rfl

/-- A step in phase APPLY (R82). -/
theorem step_apply (hc : s.cfg = .composed) (hp : s.ph = phaseApply) (he : s.env = slot :: rest) (hr : slot.reset = none) :
    step s = .next (enterWait (enc s.cur { s with env := rest })) := by
  rw [step_composed hc (by rw [currentSlot_cons he, hr]), hp, sequencerInput_of_ne (by simp [hp]), dropSlot_cons he]
  simp [exec, execApply, currentDigit, hp]

/-- A step in phase WAIT at which TIMER_DONE comes (R84). -/
theorem step_wait_timer (hc : s.cfg = .composed) (hp : s.ph = phaseWait) (he : s.env = slot :: rest)
    (hr : slot.reset = none) (ht : slot.timerDone = true) :
    step s = .next { s with ph := phaseAdv, wt := .idle, env := rest } := by
  rw [step_composed hc (by rw [currentSlot_cons he, hr]), hp, currentSlot_cons he, dropSlot_cons he]
  simp [exec, execWait, sequencerInput, timerEvent, ht, hp, leaveWait]

/-- A step in phase WAIT at which TIMER_DONE has not come (R84). -/
theorem step_wait_hold (hc : s.cfg = .composed) (hp : s.ph = phaseWait) (he : s.env = slot :: rest)
    (hr : slot.reset = none) (ht : slot.timerDone = false) (hw : s.wt ≠ .done) :
    step s = .next { s with env := rest } := by
  rw [step_composed hc (by rw [currentSlot_cons he, hr]), hp, currentSlot_cons he, dropSlot_cons he]
  rcases execWait_cases { s with env := rest } with ⟨a, -⟩ | ⟨-, b⟩
  · exact absurd a hw
  · simpa [sequencerInput, ht, exec, hp] using b

/-- A step in phase ADV (R86). -/
theorem step_adv (hc : s.cfg = .composed) (hp : s.ph = phaseAdv) (he : s.env = slot :: rest) (hr : slot.reset = none) :
    step s = .next { s with ph := phaseLog, cur := advanceDigit s.cur, env := rest } := by
  rw [step_composed hc (by rw [currentSlot_cons he, hr]), hp, sequencerInput_of_ne (by simp [hp]), dropSlot_cons he]
  rfl

end phases

/-- A WAIT held for any number of steps (R84). -/
theorem run_hold (hold : Nat) (s : State) (rest : List EnvSlot) (hc : s.cfg = .composed) (hp : s.ph = phaseWait)
    (hw : s.wt ≠ .done) (he : s.env = List.replicate hold .quiet ++ rest) :
    runSteps hold s = .next { s with env := rest } := by
  induction hold generalizing s with
  | zero => simp at he; rw [run_zero, ← he]
  | succ n ih =>
    rw [List.replicate_succ, List.cons_append] at he
    rw [run_succ (step_wait_hold hc hp he rfl rfl hw)]
    exact ih { s with env := List.replicate n .quiet ++ rest } hc hp hw rfl

theorem tickSlots_length (hold : Nat) : (tickSlots hold).length = hold + 4 := by
  simp [tickSlots]

/-- One complete tick, whatever time its WAIT takes (R78, R89). -/
theorem run_tick (hold : Nat) (s : State) (v : SegVec) (rest : List EnvSlot) (hc : s.cfg = .composed)
    (hp : s.ph = phaseLog) (hv : romRead s.cur = some v) (he : s.env = tickSlots hold ++ rest) :
    runSteps (tickSlots hold).length s =
      .next { s with cur := advanceDigit s.cur, ph := phaseLog, seg := v, wt := .idle,
                     console := s.console ++ [.disp s.cur], env := rest } := by
  have he' : s.env = .quiet :: .quiet :: (List.replicate hold .quiet ++ ([.timer, .quiet] ++ rest)) := by
    simp [he, tickSlots]
  rw [tickSlots_length]
  refine (run_succ (step_log hc hp he' rfl) (hold + 3)).trans ?_
  refine (run_succ (step_apply (by exact hc) rfl rfl rfl) (hold + 2)).trans ?_
  rw [enc_of_word hv]
  refine (run_add (run_hold hold _ ([.timer, .quiet] ++ rest) (by exact hc) rfl (by simp) rfl) 2).trans ?_
  refine (run_succ (step_wait_timer (by exact hc) rfl rfl rfl rfl) 1).trans ?_
  exact run_succ (step_adv (by exact hc) rfl rfl rfl) 0

end Sys2Proof.Machine
end

