-- ==== Sys2Proof/Tests/Slice0.lean ====
section
/-! SUPPORT. Tests from the worked examples and vectors of 95_test_vectors.md and the tables of 30_encoding.md and 40_encoder.md, and for each obligation with hypotheses a witness that meets them. -/

open Sys2Proof Sys2Proof.Machine

namespace Sys2Proof.Tests

/-- The state a step answers, if it answers one. -/
def after : Host.Outcome State Fault Refusal → Option State
  | .next t => some t
  | .fault _ => none
  | .refused _ => none

/-- A COMPOSED block with these registers, its timer as PH has it, and this environment. -/
def block (cur : Digit) (ph : PhaseCode) (seg : SegVec) (env : List EnvSlot) : State :=
  { State.powerOn .composed seg with
    cur := cur, ph := ph, wt := (if ph = phaseWait then .running else .idle), env := env }

/-- An ENCODER_ONLY block with this SEG and environment. -/
def encoder (seg : SegVec) (env : List EnvSlot) : State := { State.powerOn .encoderOnly seg with env := env }

/-- What a test looks at: CUR, PH, SEG and the console stream. -/
def seen (s : State) : Digit × PhaseCode × SegVec × List ConsoleEvent := (s.cur, s.ph, s.seg, s.console)

/-! ## Well-formedness refuses each ill-formed operand (R69) -/

theorem test_wellFormed_refuses_9_in_row_101x : (Instr.encInvalid10to11 9#4).wellFormed = false := by decide
theorem test_wellFormed_refuses_12_in_row_101x : (Instr.encInvalid10to11 12#4).wellFormed = false := by decide
theorem test_wellFormed_refuses_11_in_row_11xx : (Instr.encInvalid12to15 11#4).wellFormed = false := by decide

/-! ## Decoding: each row's pattern, written out from opcode_table.json -/

theorem test_decode_enc0 : decode (.digit4 0b0000#4) = .enc0 := by decide
theorem test_decode_enc1 : decode (.digit4 0b0001#4) = .enc1 := by decide
theorem test_decode_enc2 : decode (.digit4 0b0010#4) = .enc2 := by decide
theorem test_decode_enc3 : decode (.digit4 0b0011#4) = .enc3 := by decide
theorem test_decode_enc4 : decode (.digit4 0b0100#4) = .enc4 := by decide
theorem test_decode_enc5 : decode (.digit4 0b0101#4) = .enc5 := by decide
theorem test_decode_enc6 : decode (.digit4 0b0110#4) = .enc6 := by decide
theorem test_decode_enc7 : decode (.digit4 0b0111#4) = .enc7 := by decide
theorem test_decode_enc8 : decode (.digit4 0b1000#4) = .enc8 := by decide
theorem test_decode_enc9 : decode (.digit4 0b1001#4) = .enc9 := by decide
theorem test_decode_1010 : decode (.digit4 0b1010#4) = .encInvalid10to11 0b1010#4 := by decide
theorem test_decode_1011 : decode (.digit4 0b1011#4) = .encInvalid10to11 0b1011#4 := by decide
theorem test_decode_1100 : decode (.digit4 0b1100#4) = .encInvalid12to15 0b1100#4 := by decide
theorem test_decode_1111 : decode (.digit4 0b1111#4) = .encInvalid12to15 0b1111#4 := by decide
theorem test_decode_log : decode (.phase2 0b00#2) = .log := by decide
theorem test_decode_apply : decode (.phase2 0b01#2) = .apply := by decide
theorem test_decode_wait : decode (.phase2 0b10#2) = .wait := by decide
theorem test_decode_adv : decode (.phase2 0b11#2) = .adv := by decide
theorem test_table_word_of_4_bits : decodeTableWord 4 0b0011 = some .enc3 := by decide
theorem test_table_word_of_2_bits : decodeTableWord 2 0b11 = some .adv := by decide
-- D4: 16 is refused, not truncated to 0.
theorem test_word_16_is_refused : readWord 4 16 = .error (.digitTooWide 16) := by rfl
theorem test_word_of_no_format_is_refused : readWord 3 0 = .error (.noSuchWidth 3) := by rfl
theorem test_field_widths :
    (OpWord.digit4 0#4).width = Config.digitW ∧ 2 ^ Config.digitW = Config.romAddresses ∧
    romWords.length = Config.modulus ∧ (segmentText 0#7).length = Config.segW := by decide

/-! ## ENC: the vectors E0 to E15, from SEG = 0x2A -/

theorem test_E0 : (after (exec .enc0 (encoder 0x2A#7 []))).map seen = some (0#4, 0#2, 0x7E#7, []) := by decide
theorem test_E1 : (after (exec .enc1 (encoder 0x2A#7 []))).map seen = some (0#4, 0#2, 0x30#7, []) := by decide
theorem test_E2 : (after (exec .enc2 (encoder 0x2A#7 []))).map seen = some (0#4, 0#2, 0x6D#7, []) := by decide
theorem test_E3 : (after (exec .enc3 (encoder 0x2A#7 []))).map seen = some (0#4, 0#2, 0x79#7, []) := by decide
theorem test_E4 : (after (exec .enc4 (encoder 0x2A#7 []))).map seen = some (0#4, 0#2, 0x33#7, []) := by decide
theorem test_E5 : (after (exec .enc5 (encoder 0x2A#7 []))).map seen = some (0#4, 0#2, 0x5B#7, []) := by decide
theorem test_E6 : (after (exec .enc6 (encoder 0x2A#7 []))).map seen = some (0#4, 0#2, 0x1F#7, []) := by decide
theorem test_E7 : (after (exec .enc7 (encoder 0x2A#7 []))).map seen = some (0#4, 0#2, 0x70#7, []) := by decide
theorem test_E8 : (after (exec .enc8 (encoder 0x2A#7 []))).map seen = some (0#4, 0#2, 0x7F#7, []) := by decide
theorem test_E9 : (after (exec .enc9 (encoder 0x2A#7 []))).map seen = some (0#4, 0#2, 0x73#7, []) := by decide
theorem test_E10 : (after (exec (.encInvalid10to11 10#4) (encoder 0x2A#7 []))).map seen =
    some (0#4, 0#2, 0x2A#7, [.unimpl]) := by decide
theorem test_E11 : (after (exec (.encInvalid10to11 11#4) (encoder 0x2A#7 []))).map seen =
    some (0#4, 0#2, 0x2A#7, [.unimpl]) := by decide
theorem test_E12 : (after (exec (.encInvalid12to15 12#4) (encoder 0x2A#7 []))).map seen =
    some (0#4, 0#2, 0x2A#7, [.unimpl]) := by decide
theorem test_E15 : (after (exec (.encInvalid12to15 15#4) (encoder 0x2A#7 []))).map seen =
    some (0#4, 0#2, 0x2A#7, [.unimpl]) := by decide
-- EC8
theorem test_EC8 : digitValidBits 0b1001#4 = true ∧ digitValidBits 0b1010#4 = false ∧ digitValidBits 0b0111#4 = true ∧
    digitValidBits 0b1100#4 = false := by decide
-- R48: "A,B,C,D,E,F lit, G unlit" is 1111110 = 0x7E.
theorem test_segment_text : segmentText 0x7E#7 = ['1', '1', '1', '1', '1', '1', '0'] := by decide
theorem test_digit_value : digitValue 0b1001#4 = 9 := by decide

/-! ## The sequencer's vectors -/

-- L9
theorem test_L9 : (after (step (block 9#4 phaseLog 0x7F#7 []))).map seen =
    some (9#4, phaseApply, 0x7F#7, [.disp 9#4]) := by decide
-- P1
theorem test_P1 : (after (step (block 1#4 phaseApply 0x7E#7 []))).map seen = some (1#4, phaseWait, 0x30#7, []) := by decide
-- PX
theorem test_PX : (after (step (block 12#4 phaseApply 0x2A#7 []))).map seen =
    some (12#4, phaseWait, 0x2A#7, [.unimpl]) := by decide
-- W-a, W-b, W-c
theorem test_Wa : (after (step (block 3#4 phaseWait 0x79#7 [.timer]))).map seen = some (3#4, phaseAdv, 0x79#7, []) := by decide
theorem test_Wb : (after (step (block 3#4 phaseWait 0x79#7 [.quiet]))).map seen = some (3#4, phaseWait, 0x79#7, []) := by decide
theorem test_Wc : (after (step (block 3#4 phaseWait 0x79#7 [.warmReset]))).map seen = some (0#4, phaseLog, 0x79#7, []) := by
  decide
-- A8, A9
theorem test_A8 : (after (step (block 8#4 phaseAdv 0x7F#7 []))).map seen = some (9#4, phaseLog, 0x7F#7, []) := by decide
theorem test_A9 : (after (step (block 9#4 phaseAdv 0x73#7 []))).map seen = some (0#4, phaseLog, 0x73#7, []) := by decide
-- R-c and R97: RESET wins over APPLY, and over TIMER_DONE in WAIT.
theorem test_Rc : (after (step (block 7#4 phaseApply 0x1F#7 [.warmReset]))).map seen = some (0#4, phaseLog, 0x1F#7, []) := by
  decide
theorem test_reset_wins_over_timer :
    (after (step (block 7#4 phaseWait 0x1F#7 [{ EnvSlot.warmReset with timerDone := true }]))).map seen =
      some (0#4, phaseLog, 0x1F#7, []) := by decide
-- R115: power-on gives SEG a drawn value and an empty console stream.
theorem test_power_on : (after (step { block 7#4 phaseWait 0x1F#7 [.powerOn 0x55#7] with console := [.disp 7#4] })).map seen =
    some (0#4, phaseLog, 0x55#7, []) := by decide
-- R84: TIMER_DONE means nothing outside WAIT, and R7: a strobe means nothing in COMPOSED.
theorem test_timer_outside_wait : (after (step (block 5#4 phaseLog 0x33#7 [.timer]))).map seen =
    some (5#4, phaseApply, 0x33#7, [.disp 5#4]) := by decide
theorem test_strobe_in_composed : (after (step (block 5#4 phaseAdv 0x5B#7 [.enc 2#4]))).map seen =
    some (6#4, phaseLog, 0x5B#7, []) := by decide

/-! ## ENCODER_ONLY (R75, R74) -/

theorem test_strobe : (after (step (encoder 0x7E#7 [harnessRequest 1]))).map seen = some (0#4, 0#2, 0x30#7, []) := by decide
theorem test_no_strobe : after (step (encoder 0x30#7 [])) = some (encoder 0x30#7 []) := by decide
-- R74: 16 would be 0 if truncated, and -1 would be 15.
theorem test_16_and_minus_1_refused : harnessRequest 16 = .quiet ∧ harnessRequest (-1) = .quiet := by decide

/-! ## What the environment sees -/

-- W2, R58
theorem test_disp_text : eventText (.disp 0#4) = "Displaying number: 0".toList := by decide
theorem test_unimpl_text : eventText .unimpl = "Unimplemented".toList := by decide
theorem test_disp_text_of_15 : eventText (.disp 15#4) = "Displaying number: 15".toList := by decide
-- P6: the second of three events is dropped.
theorem test_P6 : delivered (fun k => k != 1) [.disp 0#4, .disp 1#4, .disp 2#4] = [.disp 0#4, .disp 2#4] := by decide
-- R92
theorem test_condition_codes : conditionCode .invalidDigit = 1 ∧ conditionCode .consoleDrop = 2 := by decide
-- R102, with a display lit by a low level, showing 1: B is lit and A is not.
theorem test_pins : pinLevel ⟨2, 3, 4, 5, 6, 7, 8⟩ .low (block 1#4 phaseWait 0x30#7 []) 3 = some .low ∧
    pinLevel ⟨2, 3, 4, 5, 6, 7, 8⟩ .low (block 1#4 phaseWait 0x30#7 []) 2 = some .high ∧
    pinLevel ⟨2, 3, 4, 5, 6, 7, 8⟩ .low (block 1#4 phaseWait 0x30#7 []) 9 = none := by decide
-- R56
theorem test_operands : readOperand ['0', 'b', '1', '1', '0', '0'] = some 12#4 ∧ readOperand ['1', '5'] = some 15#4 ∧
    readOperand ['7'] = some 7#4 ∧ readOperand ['1', '6'] = none := by decide
-- R57: APPLY may not stand where PH is LOG.
theorem test_trace_out_of_order : runTrace [.apply] (block 0#4 phaseLog 0#7 []) = none := by decide
-- W2: tick 0.
theorem test_tick_0 : (runTrace [.tick] State.reset).map seen = some (1#4, phaseLog, 0x7E#7, [.disp 0#4]) := by decide
-- R106: 1000 ms at 16 MHz is 16000000 cycles; R125: ten digits take at least 10 s.
theorem test_wait_cycles : Config.waitCycles 16000000 = 16000000 ∧ Config.fullCycleMinMs = 10000 := by decide
-- The loading device: each format's word is what the next step performs.
theorem test_placed_enc : (after (step (State.reset.withFetchWord 4 0b0010))).map seen = some (0#4, phaseLog, 0x6D#7, []) := by
  decide
theorem test_placed_wait : (after (step (State.reset.withFetchWord 2 0b10))).map seen = some (0#4, phaseAdv, 0#7, []) := by
  decide

/-! ## Witnesses: the hypotheses of each obligation are met -/

theorem witness_DecodeAndEncodeAreInverse :
    (Instr.encInvalid10to11 10#4).wellFormed = true ∧ (Instr.encInvalid12to15 15#4).wellFormed = true ∧
    Instr.enc0.wellFormed = true ∧ Instr.adv.wellFormed = true := by decide
theorem witness_EncRowsWriteTheirRomWords : romRead 0#4 = some 0x7E#7 ∧ romRead 9#4 = some 0x73#7 := by decide
theorem witness_EncOnInvalidDigitsReportsAndKeepsSegments :
    (Instr.encInvalid10to11 10#4).wellFormed = true ∧ (Instr.encInvalid10to11 11#4).wellFormed = true ∧
    (Instr.encInvalid12to15 12#4).wellFormed = true ∧ (Instr.encInvalid12to15 15#4).wellFormed = true := by decide
theorem witness_EncWritesTheWordOrRaisesInvalidDigit :
    romRead 0#4 = some 0x7E#7 ∧ romRead 9#4 = some 0x73#7 ∧ romRead 10#4 = none ∧ romRead 15#4 = none := by decide
theorem witness_ValidSignalDecidesTheEncStep :
    digitValid 0#4 = true ∧ digitValid 9#4 = true ∧ digitValid 10#4 = false ∧ digitValid 15#4 = false := by decide
theorem witness_EncSetsAllSevenSegmentsWhateverTheyHeld : romRead 9#4 = some 0x73#7 := by decide
theorem witness_EncTwiceLeavesSegAsEncOnce : romRead 9#4 = some 0x73#7 ∧ romRead 10#4 = none := by decide
theorem witness_ValidDigitsAreToldApartBySegments :
    (8#4).toNat ≤ 9 ∧ (9#4).toNat ≤ 9 ∧ (after (exec (decodeDigit 8#4) State.reset)).isSome = true ∧
    (after (exec (decodeDigit 9#4) State.reset)).isSome = true := by decide
theorem witness_EncFrame : IsEnc (.encInvalid12to15 15#4) ∧ IsEnc .enc9 ∧
    (after (exec (.encInvalid12to15 15#4) State.reset)).isSome = true ∧ (after (exec .enc9 State.reset)).isSome = true :=
  ⟨⟨15#4, by decide⟩, ⟨9#4, by decide⟩, by decide, by decide⟩
theorem witness_ApplyRendersTheCurrentDigit :
    (block 9#4 phaseApply 0#7 []).cur.toNat ≤ 9 ∧ 10 ≤ (block 10#4 phaseApply 0#7 []).cur.toNat := by decide
theorem witness_WaitHoldsUntilTimerDone :
    (block 3#4 phaseWait 0#7 [.timer]).cfg = .composed ∧ (block 3#4 phaseWait 0#7 [.timer]).ph = 0b10#2 ∧
    EnvSlot.timer.reset = none ∧ EnvSlot.timer.timerDone = true ∧
    EnvSlot.quiet.reset = none ∧ EnvSlot.quiet.timerDone = false ∧ (block 3#4 phaseWait 0#7 [.quiet]).wt ≠ .done := by decide
theorem witness_WaitCompletesWithTheTimerDone :
    (timerEvent (block 3#4 phaseWait 0#7 [])).wt = .done ∧ (block 3#4 phaseWait 0#7 []).wt ≠ .done := by decide
theorem witness_AdvCountsModuloTen :
    (block 9#4 phaseAdv 0#7 []).cur.toNat ≤ 9 ∧ 10 ≤ (block 10#4 phaseAdv 0#7 []).cur.toNat ∧
    10 ≤ (block 15#4 phaseAdv 0#7 []).cur.toNat := by decide
theorem witness_SequencerStepsFrame :
    (after (exec .log State.reset)).isSome = true ∧ (after (exec .apply (block 9#4 phaseApply 0#7 []))).isSome = true ∧
    (after (exec .apply (block 10#4 phaseApply 0#7 []))).isSome = true ∧ (after (exec .wait State.reset)).isSome = true ∧
    (after (exec .adv State.reset)).isSome = true := by decide
theorem witness_StepPerformsTheDecodedOperation :
    (block 3#4 phaseWait 0#7 [.timer]).env = [.timer] ∧ EnvSlot.timer.reset = none ∧ EnvSlot.timer.timerDone = true ∧
    (block 3#4 phaseWait 0#7 [.timer]).cfg = .composed ∧ (block 3#4 phaseWait 0#7 [.timer]).ph = 0b10#2 ∧
    (block 3#4 phaseLog 0#7 [.timer]).cfg = .composed ∧ (block 3#4 phaseLog 0#7 [.timer]).ph ≠ 0b10#2 ∧
    (encoder 0#7 [.enc 15#4]).cfg = .encoderOnly ∧ (EnvSlot.enc 15#4).strobe = some 15#4 ∧ (EnvSlot.enc 15#4).reset = none ∧
    EnvSlot.quiet.strobe = none ∧ (encoder 0#7 []).env = [] ∧ State.reset.env = [] := by decide
theorem witness_PlacedWordRunsNext : OpWord.phase2 phaseWait = .phase2 phaseWait := rfl
theorem witness_NoConditionStopsTheBlock :
    (block 10#4 phaseApply 0#7 []).cfg = .composed ∧ (currentSlot (block 10#4 phaseApply 0#7 [])).reset = none ∧
    (block 10#4 phaseApply 0#7 []).ph = phaseApply ∧ encCondition 10#4 = some .invalidDigit := by decide
theorem witness_PhaseAdvancesInAFixedCycle :
    (currentSlot (block 3#4 phaseWait 0#7 [.timer])).reset = none ∧
    (currentSlot (block 3#4 phaseWait 0#7 [.timer])).timerDone = true ∧
    (after (step (block 3#4 phaseWait 0#7 [.timer]))).isSome = true ∧
    (after (step (block 3#4 phaseApply 0#7 [.warmReset]))).map (·.ph) ≠ some phaseApply := by decide
theorem witness_ResetLeavesTheResetValues :
    (currentSlot (block 7#4 phaseWait 0x1F#7 [.warmReset])).reset = some .warm ∧
    (currentSlot (encoder 0x1F#7 [.powerOn 0x55#7])).reset = some (.powerOn 0x55#7) := by decide
theorem witness_ResetHasPriorityAndKeepsSeg :
    (block 7#4 phaseWait 0x1F#7 [{ EnvSlot.timer with reset := some .warm }]).cfg = .composed ∧
    (encoder 0x1F#7 [{ EnvSlot.enc 3#4 with reset := some .warm }]).cfg = .encoderOnly ∧
    EnvSlot.warmReset.reset = some .warm := by decide
theorem witness_PowerOnResetsWithAnySegValue :
    (block 7#4 phaseWait 0x1F#7 [.powerOn 0x55#7]).env = [.powerOn 0x55#7] ∧
    (EnvSlot.powerOn 0x55#7).reset = some (.powerOn 0x55#7) := by decide
theorem witness_OnlyEncAndPowerOnChangeSeg :
    (after (step (block 9#4 phaseApply 0#7 []))).map (·.seg) = some 0x73#7 ∧
    (after (step (encoder 0#7 [.enc 9#4]))).map (·.seg) = some 0x73#7 ∧
    (after (step (block 9#4 phaseLog 0#7 [.powerOn 1#7]))).map (·.seg) = some 1#7 := by decide
theorem witness_OnlyAdvAndResetChangeCur :
    (after (step (block 8#4 phaseAdv 0#7 []))).map (·.cur) = some 9#4 ∧
    (after (step (block 15#4 phaseAdv 0#7 []))).map (·.cur) = some 0#4 ∧
    (after (step (block 8#4 phaseWait 0#7 [.warmReset]))).map (·.cur) = some 0#4 := by decide
theorem witness_EveryEventHasItsCause :
    (after (step (block 9#4 phaseLog 0#7 []))).map (·.console) = some [.disp 9#4] ∧
    (after (step (block 10#4 phaseApply 0#7 []))).map (·.console) = some [.unimpl] ∧
    (after (step (encoder 0#7 [.enc 10#4]))).map (·.console) = some [.unimpl] ∧
    (currentSlot (block 9#4 phaseLog 0#7 [])).reset = none := by decide
theorem witness_EncoderOnlyHasNoSequencer :
    observe (encoder 0x2A#7 [.enc 3#4]) = observe { encoder 0x2A#7 [.enc 3#4] with cur := 7#4, ph := phaseAdv, wt := .done } ∧
    (after (step (encoder 0x2A#7 [.enc 3#4]))).isSome = true ∧
    (after (step { encoder 0x2A#7 [.enc 3#4] with cur := 7#4, ph := phaseAdv, wt := .done })).isSome = true := by decide
theorem witness_HarnessIntegersAreRefusedNotTruncated :
    (encoder 0#7 [harnessRequest 16]).cfg = .encoderOnly ∧ (encoder 0#7 [harnessRequest 9]).env = [harnessRequest 9] ∧
    (encoder 0#7 [harnessRequest 10]).env = [harnessRequest 10] ∧ (0 : Int) ≤ 9 ∧ (15 : Int) < 16 := by decide
theorem witness_EveryStepKeepsTheInvariant : SequencerInv State.reset ∧ (after (step State.reset)).isSome = true :=
  ⟨by unfold SequencerInv CurInRange TimerMatchesPhase SegMatchesPhase; decide, by decide⟩
theorem witness_ComposedRunsStayInRangeAndNeverEmitUnimpl :
    (after (runSteps 3 { State.powerOn .composed 1#7 with env := [.quiet, .quiet, .timer] })).isSome = true := by decide
theorem witness_SegLagsCurUntilApply : romRead (block 9#4 phaseAdv 0x73#7 []).cur = some (block 9#4 phaseAdv 0x73#7 []).seg := by
  decide
theorem witness_TicksCountModuloTen :
    (block 9#4 phaseLog 0#7 (ticksSlots [0, 2] ++ [.quiet])).cfg = .composed ∧
    (block 9#4 phaseLog 0#7 (ticksSlots [0, 2] ++ [.quiet])).cur.toNat ≤ 9 ∧
    (block 9#4 phaseLog 0#7 (ticksSlots [0, 2] ++ [.quiet])).ph = phaseLog ∧
    (block 9#4 phaseLog 0#7 (ticksSlots [0, 2] ++ [.quiet])).env = ticksSlots [0, 2] ++ [.quiet] := by decide
theorem witness_DigitsAreLoggedInOrderWhateverTheTimerDoes :
    Uninterrupted [.quiet, .timer, .quiet, .timer] ∧ (block 9#4 phaseLog 0#7 [.quiet, .timer, .quiet, .timer]).ph = phaseLog ∧
    (after (runSteps 4 (block 9#4 phaseLog 0#7 [.quiet, .timer, .quiet, .timer]))).isSome = true := by
  unfold Uninterrupted; decide
theorem witness_EveryDigitIsShownForEverUnderFairness :
    State.reset.cfg = .composed ∧ Launch State.reset ∧ NeverReset (fun _ => .timer) ∧
    TimerFair (fun _ => .timer) State.reset ∧ (9#4).toNat ≤ 9 :=
  ⟨rfl, by unfold Launch; decide, fun _ => rfl, fun k _ => ⟨k, le_refl k, rfl⟩, by decide⟩
theorem witness_RunExpandsToTicksAtLog :
    (block 9#4 phaseLog 0#7 []).cfg = .composed ∧ (block 9#4 phaseLog 0#7 []).ph = phaseLog ∧
    (block 9#4 phaseLog 0#7 []).cur.toNat ≤ 9 ∧ (block 9#4 phaseAdv 0#7 []).ph ≠ phaseLog ∧
    (encoder 0#7 []).cfg ≠ .composed := by decide
theorem witness_OutputPinsFollowSeg : PinMapDistinct ⟨2, 3, 4, 5, 6, 7, 8⟩ := by
  intro x y; cases x <;> cases y <;> decide

end Sys2Proof.Tests
end

-- Proofs about the encoder (40_encoder.md R59 to R71).
section
namespace Sys2Proof.Machine

/-! ## What the row of a digit does -/

/-- R71's first branch at the level of `exec`, with the whole next state. -/
theorem exec_decodeDigit_of_word {d : Digit} {v : SegVec} (h : romRead d = some v) (s : State) :
    exec (decodeDigit d) s = .next { s with seg := v } := by
  rw [exec_decodeDigit, enc_of_word h, segWrite]

/-- R71's second branch at the level of `exec`, with the whole next state. -/
theorem exec_decodeDigit_of_none {d : Digit} (h : romRead d = none) (s : State) :
    exec (decodeDigit d) s = .next { s with console := s.console ++ [.unimpl] } := by
  rw [exec_decodeDigit, enc_of_none h, emit]

/-- InvalidDigit is raised from 10 on (R91). -/
theorem encCondition_eq_invalidDigit_iff (d : Digit) : encCondition d = some .invalidDigit ↔ 10 ≤ d.toNat := by
  simp [encCondition]

/-! ## The rows of the valid digits -/

/-- A digit's row is settled by three closed facts: its decoding, its ROM word and the segments the word lights. -/
theorem encRow_of_table {i : Instr} {d : Digit} {v : SegVec} {lit : List Segment} (hi : decodeDigit d = i)
    (hv : romRead d = some v) (hlit : litSegments v = lit) : EncRow i d v lit :=
  ⟨hi, hv, hlit, fun s => hi ▸ exec_decodeDigit_of_word hv s⟩

/-- The corner cases of R60, R61, R64 and R67, over the ten defined addresses. -/
theorem encTableCorners_of_word : ∀ (d : Digit) (v : SegVec), romRead d = some v → EncTableCorners d v := by
  have table : ∀ d : Digit, ∀ v ∈ romRead d, EncTableCorners d v := by
    unfold EncTableCorners
    decide
  exact table

/-! ## The rows of the invalid digits -/

/-- The operand the row 101x can carry selects that row (R52). -/
theorem decodeDigit_of_wellFormed_10to11 :
    ∀ d : Digit, (Instr.encInvalid10to11 d).wellFormed = true → decodeDigit d = .encInvalid10to11 d := by
  decide

/-- The operand the row 11xx can carry selects that row (R52). -/
theorem decodeDigit_of_wellFormed_12to15 :
    ∀ d : Digit, (Instr.encInvalid12to15 d).wellFormed = true → decodeDigit d = .encInvalid12to15 d := by
  decide

/-- A well-formed operation of an invalid-digit row is the decoding of its operand, which is 10 or more (R52, R69). -/
theorem invalidRow_decodes {i : Instr} {d : Digit} (hi : i = .encInvalid10to11 d ∨ i = .encInvalid12to15 d)
    (hwf : i.wellFormed = true) : decodeDigit d = i ∧ 10 ≤ d.toNat := by
  rcases hi with rfl | rfl
  · have range : 10 ≤ d.toNat ∧ d.toNat ≤ 11 := of_decide_eq_true hwf
    exact ⟨decodeDigit_of_wellFormed_10to11 d hwf, range.1⟩
  · have range : 12 ≤ d.toNat := of_decide_eq_true hwf
    exact ⟨decodeDigit_of_wellFormed_12to15 d hwf, by omega⟩

/-! ## The obligations -/

/-- Settles O6, by the two branches of R71's case. -/
theorem encWritesTheWordOrRaisesInvalidDigit : Obligations.EncWritesTheWordOrRaisesInvalidDigit := by
  intro d s
  refine ⟨fun v hv => exec_decodeDigit_of_word hv s, fun hnone => exec_decodeDigit_of_none hnone s, ?_,
    encCondition_eq_invalidDigit_iff d⟩
  rw [← romRead_isSome_iff, Option.isSome_iff_exists]

/-- Settles O4, row by row from the table, the corner cases over the whole of it. -/
theorem encRowsWriteTheirRomWords : Obligations.EncRowsWriteTheirRomWords :=
  ⟨encRow_of_table rfl rfl rfl, encRow_of_table rfl rfl rfl, encRow_of_table rfl rfl rfl, encRow_of_table rfl rfl rfl,
    encRow_of_table rfl rfl rfl, encRow_of_table rfl rfl rfl, encRow_of_table rfl rfl rfl, encRow_of_table rfl rfl rfl,
    encRow_of_table rfl rfl rfl, encRow_of_table rfl rfl rfl, encTableCorners_of_word⟩

/-- Settles O5: both rows are the decoding of an operand without a ROM word, so R71's second branch applies, and applies
again to the state it answers. -/
theorem encOnInvalidDigitsReportsAndKeepsSegments : Obligations.EncOnInvalidDigitsReportsAndKeepsSegments := by
  intro i d s hi hwf
  obtain ⟨hdec, hinvalid⟩ := invalidRow_decodes hi hwf
  have hnone : romRead d = none := (romRead_eq_none_iff d).mpr hinvalid
  have hexec (t : State) : exec i t = .next { t with console := t.console ++ [.unimpl] } :=
    hdec ▸ exec_decodeDigit_of_none hnone t
  refine ⟨hdec, hnone, (encCondition_eq_invalidDigit_iff d).mpr hinvalid, hexec s, ?_⟩
  rw [hexec, List.append_assoc, List.singleton_append]

end Sys2Proof.Machine
end

-- Proofs about the sequencer (41_sequencer.md R79 to R86).
section
namespace Sys2Proof.Machine

/-! ## What LOG, APPLY and ADV answer -/

/-- LOG as R80's pseudocode gives it. -/
theorem exec_log (s : State) : exec .log s = .next (setPhase phaseApply (emit (.disp s.cur) s)) := rfl

/-- APPLY as R82's pseudocode gives it. -/
theorem exec_apply (s : State) : exec .apply s = .next (enterWait (enc s.cur s)) := rfl

/-- ADV as R86's pseudocode gives it. -/
theorem exec_adv (s : State) : exec .adv s = .next (setPhase phaseLog { s with cur := advanceDigit s.cur }) := rfl

/-- APPLY of a digit with a ROM word, with the whole next state (R71, R82). -/
theorem exec_apply_of_word {s : State} {v : SegVec} (h : romRead s.cur = some v) :
    exec .apply s = .next { s with seg := v, ph := phaseWait, wt := .running } := by
  rw [exec_apply, enc_of_word h, segWrite, enterWait]

/-- APPLY of a digit without a ROM word, with the whole next state (R69, R82). -/
theorem exec_apply_of_none {s : State} (h : romRead s.cur = none) :
    exec .apply s = .next { s with console := s.console ++ [.unimpl], ph := phaseWait, wt := .running } := by
  rw [exec_apply, enc_of_none h, emit, enterWait]

/-! ## The cycle of the phases -/

/-- `next(PH)` goes round LOG, APPLY, WAIT, ADV (R79). -/
@[simp] theorem nextPhase_phaseLog : nextPhase phaseLog = phaseApply := rfl
@[simp] theorem nextPhase_phaseApply : nextPhase phaseApply = phaseWait := rfl
@[simp] theorem nextPhase_phaseWait : nextPhase phaseWait = phaseAdv := rfl
@[simp] theorem nextPhase_phaseAdv : nextPhase phaseAdv = phaseLog := rfl

/-- Everything a COMPOSED step can do to PH: a reset event sets it to LOG, a WAIT that holds keeps it, and every step that
completes moves it on by one (R79, R84, R111). -/
theorem step_ph_cases {s t : State} (hc : s.cfg = .composed) (h : step s = .next t) :
    ((currentSlot s).reset ≠ none ∧ t.ph = phaseLog) ∨
    (s.ph = phaseWait ∧ ¬((currentSlot s).timerDone = true ∨ s.wt = .done) ∧ t.ph = s.ph) ∨
    t.ph = nextPhase s.ph := by
  have answer {u : State} (hu : step s = .next u) : t = u := Host.Outcome.next.inj (h.symm.trans hu)
  rcases step_cases s with ⟨k, hr, hu⟩ | ⟨-, ⟨-, hp, hu⟩ | ⟨-, hp, hu⟩ | ⟨-, hp, -, hu⟩ | ⟨-, hp, ht, hw, hu⟩ | ⟨-, hp, hu⟩ |
    ⟨hc', -⟩ | ⟨hc', -⟩⟩
  · -- a reset event
    obtain ⟨-, hph, -⟩ := resetEvent_composed (s := dropSlot s) hc k
    exact .inl ⟨by simp [hr], answer hu ▸ hph⟩
  · simp [answer hu, hp] -- LOG
  · simp [answer hu, hp] -- APPLY
  · simp [answer hu, hp] -- a WAIT that ends
  · exact .inr (.inl ⟨hp, by simp [ht, hw], by rw [answer hu, dropSlot_ph]⟩) -- a WAIT that holds
  · simp [answer hu, hp] -- ADV
  all_goals simp [hc] at hc' -- ENCODER_ONLY

/-- Settles O21: of the three things a step can do to PH, a step that completes without RESET can only do the advance, and a
step that changes PH cannot be a hold. -/
theorem phaseAdvancesInAFixedCycle : Obligations.PhaseAdvancesInAFixedCycle := by
  intro s t hc h
  have phases := step_ph_cases hc h
  constructor
  · intro hr hdone
    have advance : t.ph = nextPhase s.ph := by
      rcases phases with ⟨hreset, -⟩ | ⟨hp, hheld, -⟩ | hnext
      · exact absurd hr hreset
      · exact absurd (hdone hp) hheld
      · exact hnext
    exact ⟨advance, by simp +contextual [advance]⟩
  · intro hne
    rcases phases with ⟨hreset, hlog⟩ | ⟨-, -, hkept⟩ | hnext
    · exact .inr ⟨hlog, hreset⟩
    · exact absurd hkept hne
    · exact .inl hnext

/-! ## The single steps -/

/-- Settles O12. -/
theorem logEmitsTheDigitAndMovesToApply : Obligations.LogEmitsTheDigitAndMovesToApply := by
  intro s
  rw [exec_log, emit, setPhase]

/-- Settles O13, by whether CUR has a ROM word; ENC of CUR then leaves APPLY's state but for PH and WT. -/
theorem applyRendersTheCurrentDigit : Obligations.ApplyRendersTheCurrentDigit := by
  intro s
  cases h : romRead s.cur with
  | some v =>
    have hvalid : s.cur.toNat ≤ 9 := (romRead_isSome_iff _).mp (by simp [h])
    exact ⟨_, exec_apply_of_word h, rfl, rfl, rfl, rfl, fun _ => ⟨rfl, rfl⟩, fun _ => by omega,
      exec_decodeDigit_of_word h s⟩
  | none =>
    have hinvalid : 10 ≤ s.cur.toNat := (romRead_eq_none_iff _).mp h
    exact ⟨_, exec_apply_of_none h, rfl, rfl, rfl, rfl, fun _ => by omega, fun _ => ⟨rfl, rfl⟩,
      exec_decodeDigit_of_none h s⟩

/-- Settles O16: the new CUR is ADV's successor, whose two ranges and bound are laws of `advanceDigit`. -/
theorem advCountsModuloTen : Obligations.AdvCountsModuloTen := by
  intro s
  exact ⟨advanceDigit s.cur, exec_adv s, advanceDigit_toNat s.cur, advanceDigit_of_invalid s.cur, advanceDigit_le s.cur⟩

end Sys2Proof.Machine
end

-- Proofs about the conditions and what the environment sees (60_exceptions.md R91 to R102).
section
namespace Sys2Proof.Machine

/-! ## Runs never end -/

/-- Every run of every length answers a next state (R93). -/
theorem runSteps_completes (n : Nat) (s : State) : ∃ t, runSteps n s = .next t := by
  induction n generalizing s with
  | zero => exact ⟨s, run_zero s⟩
  | succ n ih =>
    obtain ⟨u, hu⟩ := step_completes s
    rw [run_succ hu]
    exact ih u

/-- The step of a COMPOSED block in phase APPLY whose CUR has no ROM word: it reports and goes on to WAIT (R82, R91). -/
theorem step_apply_of_none {s : State} (hc : s.cfg = .composed) (hr : (currentSlot s).reset = none)
    (hp : s.ph = phaseApply) (hnone : romRead s.cur = none) :
    step s = .next { dropSlot s with console := s.console ++ [.unimpl], ph := phaseWait, wt := .running } := by
  have outside : (dropSlot s).ph ≠ phaseWait := by simp [hp]
  rw [step_composed hc hr, hp, decodePhase_apply, sequencerInput_of_ne outside]
  exact exec_apply_of_none hnone

/-- Settles O20: runs complete because steps do, and an APPLY that raises InvalidDigit has a CUR without a ROM word. -/
theorem noConditionStopsTheBlock : Obligations.NoConditionStopsTheBlock := by
  refine ⟨runSteps_completes, fun s hc hr hp hraised => ?_⟩
  have hnone : romRead s.cur = none :=
    (romRead_eq_none_iff s.cur).mpr ((encCondition_eq_invalidDigit_iff s.cur).mp hraised)
  exact ⟨_, step_apply_of_none hc hr hp hnone, rfl, rfl, rfl⟩

/-! ## What the console sink takes -/

/-- A stream numbered from one later is taken as the draws moved up by one take it. -/
theorem deliveredFrom_succ (takes : Nat → Bool) (k : Nat) (stream : List ConsoleEvent) :
    deliveredFrom takes (k + 1) stream = deliveredFrom (fun j => takes (j + 1)) k stream := by
  induction stream generalizing k with
  | nil => rfl
  | cons e es ih => simp only [deliveredFrom, ih]

/-- The first draw decides the first event; the rest of the stream meets the rest of the draws. -/
theorem delivered_cons (takes : Nat → Bool) (e : ConsoleEvent) (es : List ConsoleEvent) :
    delivered takes (e :: es) =
      if takes 0 then e :: delivered (fun k => takes (k + 1)) es else delivered (fun k => takes (k + 1)) es := by
  simp only [delivered, deliveredFrom, deliveredFrom_succ]

/-- The sink drops events and does nothing else to the stream (R94). -/
theorem delivered_sublist (takes : Nat → Bool) (stream : List ConsoleEvent) :
    (delivered takes stream).Sublist stream := by
  induction stream generalizing takes with
  | nil => exact .slnil
  | cons e es ih =>
    rw [delivered_cons]
    split
    · exact (ih _).cons_cons e
    · exact (ih _).cons e

/-- The draws that begin with the given one and go on as `takes`. -/
def drawThen (first : Bool) (takes : Nat → Bool) : Nat → Bool
  | 0 => first
  | k + 1 => takes k

@[simp] theorem delivered_drawThen_true (takes : Nat → Bool) (e : ConsoleEvent) (es : List ConsoleEvent) :
    delivered (drawThen true takes) (e :: es) = e :: delivered takes es := delivered_cons _ _ _

@[simp] theorem delivered_drawThen_false (takes : Nat → Bool) (e : ConsoleEvent) (es : List ConsoleEvent) :
    delivered (drawThen false takes) (e :: es) = delivered takes es := delivered_cons _ _ _

/-- Some draws deliver any given subsequence: one draw for each event the subsequence keeps or leaves out (R94). -/
theorem exists_delivered_of_sublist {shown stream : List ConsoleEvent} (h : shown.Sublist stream) :
    ∃ takes, delivered takes stream = shown := by
  induction h with
  | slnil => exact ⟨fun _ => true, rfl⟩
  | cons e _ ih =>
    obtain ⟨takes, rfl⟩ := ih
    exact ⟨drawThen false takes, delivered_drawThen_false takes e _⟩
  | cons_cons e _ ih =>
    obtain ⟨takes, rfl⟩ := ih
    exact ⟨drawThen true takes, delivered_drawThen_true takes e _⟩

/-- The code of the condition an emitted event meets at the sink (R92, R94). -/
theorem sinkCondition_code (taken : Bool) :
    (sinkCondition taken).map conditionCode = if taken then none else some 2 := by
  cases taken <;> rfl

/-- Settles O41, one direction by recursion on the stream and the other on the subsequence. -/
theorem consoleMayShowAnySubsequence : Obligations.ConsoleMayShowAnySubsequence := by
  refine ⟨fun stream shown => ⟨exists_delivered_of_sublist, ?_⟩, sinkCondition_code⟩
  rintro ⟨takes, rfl⟩
  exact delivered_sublist takes stream

/-! ## The output lines -/

/-- Where the segments have lines of their own, the segment found on a segment's line is that segment (R102). -/
theorem find?_pinOf {m : PinMap} (hm : PinMapDistinct m) (x : Segment) :
    (allSegments.find? fun y => pinOf m y == pinOf m x) = some x := by
  have onlyItsOwn : (fun y => pinOf m y == pinOf m x) = fun y => decide (y = x) := by
    funext y
    have same : pinOf m y = pinOf m x ↔ y = x := ⟨hm y x, congrArg (pinOf m)⟩
    simp only [beq_eq_decide, same]
  rw [onlyItsOwn]
  cases x <;> rfl

/-- A segment's pin has the level of the segment's line (R102). -/
theorem pinLevel_pinOf {m : PinMap} (hm : PinMapDistinct m) (lit : Level) (s : State) (x : Segment) :
    pinLevel m lit s (pinOf m x) = some (lineLevel lit s x) := by
  rw [pinLevel, find?_pinOf hm, Option.map_some]

/-- The lines see nothing of the state but SEG (R102). -/
theorem lineLevel_eq_of_seg_eq {s t : State} (h : t.seg = s.seg) (lit : Level) : lineLevel lit t = lineLevel lit s := by
  funext x
  rw [lineLevel, lineLevel, h]

theorem oppositeLevel_ne (lit : Level) : oppositeLevel lit ≠ lit := by
  cases lit <;> decide

/-- Settles O43: each segment's pin is its line, which reads the segment's bit of SEG and nothing else of the state. -/
theorem outputPinsFollowSeg : Obligations.OutputPinsFollowSeg := by
  intro m lit s hm
  have line := pinLevel_pinOf hm lit s
  refine ⟨line .a, line .b, line .c, line .d, line .e, line .f, line .g, oppositeLevel_ne lit, fun t pin hseg => ?_⟩
  rw [pinLevel, pinLevel, lineLevel_eq_of_seg_eq hseg]

end Sys2Proof.Machine
end

-- Proofs about RESET (70_reset_and_hazards.md R111, R112).
section
namespace Sys2Proof.Machine

/-! ## What the reset events leave of SEG and the console -/

/-- RESET of the running block does not write SEG (R111). -/
@[simp] theorem resetEvent_warm_seg (s : State) : (resetEvent .warm s).seg = s.seg := warmReset_seg s

/-- After power-on SEG has the value the environment drew (R115). -/
@[simp] theorem resetEvent_powerOn_seg (v : SegVec) (s : State) : (resetEvent (.powerOn v) s).seg = v := rfl

/-- No reset event emits: a warm RESET keeps the stream and power-on empties it (R111, R115). -/
theorem resetEvent_console_prefix (k : ResetKind) (s : State) : (resetEvent k s).console <+: s.console := by
  cases k with
  | warm => rw [resetEvent, warmReset_console]
  | powerOn v => exact List.nil_prefix

/-! ## The step at a warm RESET -/

/-- The step at a warm RESET, whatever else its slot holds (R97, R112). -/
theorem step_warmReset {s : State} {slot : EnvSlot} {rest : List EnvSlot} (he : s.env = slot :: rest)
    (hr : slot.reset = some .warm) : step s = .next (warmReset { s with env := rest }) := by
  rw [step_reset (by rw [currentSlot_cons he, hr]), resetEvent, dropSlot_cons he]

/-! ## The obligations -/

/-- Settles O22: the step is the reset event on the state without its slot, and each part is a law of reset events. -/
theorem resetLeavesTheResetValues : Obligations.ResetLeavesTheResetValues := by
  intro s k hr
  refine ⟨resetEvent k (dropSlot s), step_reset hr, fun hc => resetEvent_composed (s := dropSlot s) hc k,
    fun hc => resetEvent_encoderOnly (s := dropSlot s) hc k, ?_, ?_, resetEvent_console_prefix k (dropSlot s)⟩
  · rintro rfl
    exact resetEvent_warm_seg (dropSlot s)
  · rintro v rfl
    exact resetEvent_powerOn_seg v (dropSlot s)

/-- Settles O23: the rest of the slot is not read, and the configuration decides what RESET writes. -/
theorem resetHasPriorityAndKeepsSeg : Obligations.ResetHasPriorityAndKeepsSeg := by
  intro s slot rest he hr
  rw [step_warmReset he hr]
  constructor
  · intro hc
    rw [warmReset_composed (s := { s with env := rest }) hc, phaseLog]
  · intro hc
    rw [warmReset_encoderOnly (s := { s with env := rest }) hc]

end Sys2Proof.Machine
end

-- Proofs about the encodings (30_encoding.md R49 to R55).
section
namespace Sys2Proof.Machine

/-! ## Decoder and encoder -/

/-- The encoded form of a well-formed operation decodes to it; only the rows with an operand of their own need the range (R52). -/
theorem decode_encode {i : Instr} (hwf : i.wellFormed = true) : decode (encode i) = i := by
  cases i
  case encInvalid10to11 d => exact decodeDigit_of_wellFormed_10to11 d hwf
  case encInvalid12to15 d => exact decodeDigit_of_wellFormed_12to15 d hwf
  all_goals rfl

/-- The decoder names no operand outside its row's range (R52, R69). -/
theorem decode_wellFormed (w : OpWord) : (decode w).wellFormed = true := by
  cases w with
  | digit4 d => revert d; decide
  | phase2 p => revert p; decide

/-- A word is the encoded form of what it decodes to (R52). -/
theorem encode_decode (w : OpWord) : encode (decode w) = w := by
  cases w with
  | digit4 d => revert d; decide
  | phase2 p => revert p; decide

/-- A word's value, read at the width of its own field, is the word again (R55). -/
theorem readWord_width_value (w : OpWord) : readWord w.width w.value = .ok w := by
  cases w with
  | digit4 d => simp [readWord, OpWord.width, OpWord.value, digitWord, d.isLt]
  | phase2 p => simp [readWord, OpWord.width, OpWord.value, phaseWord, p.isLt]

theorem decodeTableWord_width_value (w : OpWord) : decodeTableWord w.width w.value = some (decode w) := by
  simp [decodeTableWord, decodeWord, readWord_width_value]

/-- Settles O1: the reading at the field's own width gives the word back, so both readings of the encoded form are `decode`'s. -/
theorem decodeAndEncodeAreInverse : Obligations.DecodeAndEncodeAreInverse := by
  refine ⟨fun i hwf => ⟨decode_encode hwf, ?_⟩, fun w => ⟨decode_wellFormed w, encode_decode w⟩⟩
  rw [decodeTableWord_width_value, decode_encode hwf]

/-! ## The opcode table -/

/-- Over the whole table, the mnemonics of the rows that accept a word are that of its decoding, once (R52). -/
theorem accepting_mnemonics (w : OpWord) :
    (tableRows.filter fun row => row.accepts w).map TableRow.mnemonic = [(decode w).mnemonic] := by
  cases w with
  | digit4 d => revert d; decide
  | phase2 p => revert p; decide

/-- Settles O2: the accepting rows have one mnemonic between them, so they are one row. -/
theorem decoderFollowsTheOneMatchingTableRow : Obligations.DecoderFollowsTheOneMatchingTableRow := by
  intro w
  exact List.map_eq_singleton_iff.mp (accepting_mnemonics w)

/-- Settles O3, by evaluating the decoder on the nine words. -/
theorem writtenOutWordsDecode : Obligations.WrittenOutWordsDecode := by
  unfold Obligations.WrittenOutWordsDecode
  decide

end Sys2Proof.Machine
end

-- Proofs about ENC as one operation on any digit (40_encoder.md R70 to R76).
section
namespace Sys2Proof.Machine

/-! ## Valid and invalid digits -/

/-- A digit of 0 to 9 has a ROM word (R30, R46). -/
theorem exists_word_of_le {d : Digit} (h : d.toNat ≤ 9) : ∃ v, romRead d = some v :=
  Option.isSome_iff_exists.mp ((romRead_isSome_iff d).mpr h)

/-- A digit with a ROM word is 0 to 9 (R30, R46). -/
theorem le_of_word {d : Digit} {v : SegVec} (h : romRead d = some v) : d.toNat ≤ 9 :=
  (romRead_isSome_iff d).mp (by simp [h])

theorem digitValid_iff (d : Digit) : digitValid d = true ↔ d.toNat ≤ 9 := decide_eq_true_iff

/-- The two forms of the valid signal agree (R46). -/
theorem digitValidBits_eq_digitValid : ∀ d : Digit, digitValidBits d = digitValid d := by decide

/-- The valid signal is whether the digit has a ROM word (R70). -/
theorem isSome_romRead_eq_digitValid (d : Digit) : (romRead d).isSome = digitValid d := by
  rw [Bool.eq_iff_iff, romRead_isSome_iff, digitValid_iff]

/-- An operation of a row with an invalid digit comes only from a digit without a ROM word, and is then well formed (R69). -/
theorem decodeDigit_of_none : ∀ d : Digit, romRead d = none →
    (decodeDigit d).wellFormed = true ∧
      (decodeDigit d = .encInvalid10to11 d ∨ decodeDigit d = .encInvalid12to15 d) := by
  decide

/-- A digit with a ROM word has a row without an operand of its own (R52). -/
theorem decodeDigit_of_word : ∀ d : Digit, (romRead d).isSome = true →
    ∀ e, decodeDigit d ≠ .encInvalid10to11 e ∧ decodeDigit d ≠ .encInvalid12to15 e := by
  decide

/-! ## The obligations -/

/-- Settles O7, by whether the digit has a ROM word, which is the valid signal. -/
theorem validSignalDecidesTheEncStep : Obligations.ValidSignalDecidesTheEncStep := by
  intro d s
  have signal := isSome_romRead_eq_digitValid d
  refine ⟨enc d s, exec_decodeDigit d s, digitValid_iff d, digitValidBits_eq_digitValid d, signal, fun hvalid => ?_,
    fun hinvalid => ?_⟩
  · obtain ⟨v, hv⟩ := Option.isSome_iff_exists.mp (signal.trans hvalid)
    rw [enc_of_word hv, segWrite_console]
  · have hnone : romRead d = none := Option.isSome_eq_false_iff.mp (signal.trans hinvalid) |> Option.isNone_iff_eq_none.mp
    rw [enc_of_none hnone, emit_seg]

/-- Settles O8: both steps write the digit's whole word. -/
theorem encSetsAllSevenSegmentsWhateverTheyHeld : Obligations.EncSetsAllSevenSegmentsWhateverTheyHeld := by
  intro d v hv s s'
  exact ⟨_, _, exec_decodeDigit_of_word hv s, exec_decodeDigit_of_word hv s', fun _ => rfl, rfl⟩

/-- Settles O9, by whether the digit has a ROM word: the same branch of R71 is taken both times. -/
theorem encTwiceLeavesSegAsEncOnce : Obligations.EncTwiceLeavesSegAsEncOnce := by
  intro d s
  refine ⟨enc d s, enc d (enc d s), exec_decodeDigit d s, exec_decodeDigit d _, ?_⟩
  cases h : romRead d with
  | some v => simp [enc_of_word h]
  | none => simp [enc_of_none h]

/-- The segments a digit's word lights, counted (R76). -/
theorem litSegments_length_of_word : ∀ (d : Digit), ∀ v ∈ romRead d,
    some (litSegments v).length = [6, 2, 5, 5, 4, 5, 5, 3, 7, 5][d.toNat]? := by
  decide

/-- Settles O10: ENC leaves SEG at the digit's word, and the ROM is injective on valid digits. -/
theorem validDigitsAreToldApartBySegments : Obligations.ValidDigitsAreToldApartBySegments := by
  intro d e s s' t t' hd he ht ht'
  obtain ⟨v, hv⟩ := exists_word_of_le hd
  obtain ⟨v', hv'⟩ := exists_word_of_le he
  obtain rfl := Host.Outcome.next.inj ((exec_decodeDigit_of_word hv s).symm.trans ht)
  obtain rfl := Host.Outcome.next.inj ((exec_decodeDigit_of_word hv' s').symm.trans ht')
  refine ⟨fun (same : v = v') => ?_, litSegments_length_of_word d v hv⟩
  exact romRead_injective d e (by simp [hv]) (by rw [hv, hv', same])

/-- Settles O11: the operation is the row of a digit, and what it leaves alone is what ENC of that digit leaves alone. -/
theorem encFrame : Obligations.EncFrame := by
  rintro i s t ⟨d, rfl⟩ ht
  obtain rfl := Host.Outcome.next.inj ((exec_decodeDigit d s).symm.trans ht)
  refine ⟨enc_cur d s, enc_ph d s, enc_wt d s, enc_cfg d s, enc_env d s, ?_⟩
  rcases enc_cases d s with ⟨v, hword, henc⟩ | ⟨hnone, henc⟩
  · exact .inr ⟨decodeDigit_of_word d (by simp [hword]), by simp [henc]⟩
  · obtain ⟨hwf, hrow⟩ := decodeDigit_of_none d hnone
    exact .inl ⟨hwf, ⟨d, hrow⟩, by simp [henc], by simp [henc]⟩

end Sys2Proof.Machine
end

-- Proofs about one step (30_encoding.md R52, 41_sequencer.md R80 to R86, 60_exceptions.md R97).
section
namespace Sys2Proof.Machine

/-! ## The single steps of the sequencer -/

/-- WAIT with TIMER_DONE signalled, as R84's pseudocode gives it. -/
theorem exec_wait_of_done {s : State} (h : s.wt = .done) : exec .wait s = .next (leaveWait s) := by
  rcases execWait_cases s with ⟨-, hend⟩ | ⟨hheld, -⟩
  · exact hend
  · exact absurd h hheld

/-- WAIT without TIMER_DONE holds (R84). -/
theorem exec_wait_of_ne {s : State} (h : s.wt ≠ .done) : exec .wait s = .next s := by
  rcases execWait_cases s with ⟨hdone, -⟩ | ⟨-, hhold⟩
  · exact absurd hdone h
  · exact hhold

/-- Settles O15, by the two cases of WAIT. -/
theorem waitCompletesWithTheTimerDone : Obligations.WaitCompletesWithTheTimerDone := by
  intro s
  exact ⟨fun hdone => exec_wait_of_done hdone, fun hne => exec_wait_of_ne hne⟩

/-- Settles O14, by whether TIMER_DONE is in the slot. -/
theorem waitHoldsUntilTimerDone : Obligations.WaitHoldsUntilTimerDone := by
  intro s slot rest hc hp he hr
  exact ⟨fun ht => ⟨_, step_wait_timer hc hp he hr ht, rfl, rfl, rfl, rfl, rfl, rfl⟩, step_wait_hold hc hp he hr⟩

/-- Settles O17: each operation's answer, and the fields it does not write. -/
theorem sequencerStepsFrame : Obligations.SequencerStepsFrame := by
  intro i s t h
  refine ⟨?_, ?_, ?_, ?_⟩ <;> rintro rfl
  · obtain rfl := Host.Outcome.next.inj ((exec_log s).symm.trans h)
    simp
  · obtain rfl := Host.Outcome.next.inj ((exec_apply s).symm.trans h)
    refine ⟨by simp, by simp, by simp, fun hvalid => ?_, fun hinvalid => ?_⟩
    · obtain ⟨v, hv⟩ := exists_word_of_le hvalid
      simp [enc_of_word hv]
    · simp [enc_of_none ((romRead_eq_none_iff s.cur).mpr hinvalid)]
  · rcases execWait_cases s with ⟨-, hend⟩ | ⟨-, hhold⟩
    · obtain rfl := Host.Outcome.next.inj (hend.symm.trans h)
      simp
    · obtain rfl := Host.Outcome.next.inj (hhold.symm.trans h)
      simp
  · obtain rfl := Host.Outcome.next.inj ((exec_adv s).symm.trans h)
    simp

/-! ## The operation a step performs -/

/-- TIMER_DONE in WAIT has been signalled when the operation is performed (R84). -/
theorem sequencerInput_of_timer {s : State} {slot : EnvSlot} (ht : slot.timerDone = true) (hp : s.ph = phaseWait) :
    sequencerInput slot s = { s with wt := .done } := by
  simp [sequencerInput, timerEvent, ht, hp]

/-- Without TIMER_DONE, or outside WAIT, the slot tells the sequencer nothing (R84). -/
theorem sequencerInput_of_not_timer {s : State} {slot : EnvSlot} (h : ¬ (slot.timerDone = true ∧ s.ph = phaseWait)) :
    sequencerInput slot s = s := by
  by_cases hp : s.ph = phaseWait
  · have ht : slot.timerDone ≠ true := fun ht => h ⟨ht, hp⟩
    simp [sequencerInput, ht]
  · exact sequencerInput_of_ne hp slot

/-- With the schedule used up the environment does nothing (log entry 3). -/
theorem currentSlot_nil {s : State} (h : s.env = []) : currentSlot s = .quiet := by
  simp [currentSlot, h]

/-- Settles O18, by the configuration and what the slot holds. -/
theorem stepPerformsTheDecodedOperation : Obligations.StepPerformsTheDecodedOperation := by
  intro s
  refine ⟨fun slot rest he hr => ?_, fun he => ?_⟩
  · have hslot : currentSlot s = slot := currentSlot_cons he
    have hr' : (currentSlot s).reset = none := by rw [hslot, hr]
    refine ⟨fun hc ⟨ht, hp⟩ => ?_, fun hc htimer => ?_, fun hc d hs => ?_, fun hc hs => ?_⟩
    · rw [step_composed hc hr', hslot, dropSlot_cons he,
        sequencerInput_of_timer (s := { s with env := rest }) ht hp, decode]
    · rw [step_composed hc hr', hslot, dropSlot_cons he,
        sequencerInput_of_not_timer (s := { s with env := rest }) htimer, decode]
    · rw [step_strobe hc hr' (hslot ▸ hs), dropSlot_cons he, decode, exec_decodeDigit]
    · rw [step_no_strobe hc hr' (hslot ▸ hs), dropSlot_cons he]
  · have hslot : currentSlot s = .quiet := currentSlot_nil he
    have hr : (currentSlot s).reset = none := by rw [hslot, EnvSlot.quiet]
    refine ⟨fun hc => ?_, fun hc => ?_⟩
    · rw [step_composed hc hr, hslot, dropSlot_nil he, sequencerInput_of_not_timer (by simp [EnvSlot.quiet]), decode]
    · rw [step_no_strobe hc hr (by rw [hslot, EnvSlot.quiet]), dropSlot_nil he]

/-- Settles O19, by the format of the word, and for a phase by whether it is WAIT, which is placed with its TIMER_DONE. -/
theorem placedWordRunsNext : Obligations.PlacedWordRunsNext := by
  intro w s
  cases w with
  | digit4 d =>
    have run : step (placeWord (.digit4 d) s) = .next (enc d { s with cfg := .encoderOnly }) := step_strobe rfl rfl rfl
    exact ⟨{ s with cfg := .encoderOnly }, by rw [run, decode, exec_decodeDigit], rfl, rfl, rfl, rfl, by simp, by simp⟩
  | phase2 p =>
    by_cases hp : p = phaseWait
    · subst hp
      exact ⟨{ s with cfg := .composed, ph := phaseWait, wt := .done }, step_composed rfl rfl, rfl, rfl, rfl, rfl,
        fun _ hw => OpWord.phase2.inj hw, fun _ => rfl⟩
    · have placed : placeWord (.phase2 p) s =
          { s with cfg := .composed, ph := p, wt := .idle, env := .quiet :: s.env } := if_neg hp
      refine ⟨{ s with cfg := .composed, ph := p, wt := .idle }, ?_, rfl, rfl, rfl, rfl,
        fun _ hw => OpWord.phase2.inj hw, fun hw => absurd (OpWord.phase2.inj hw) hp⟩
      rw [placed]
      exact step_composed rfl rfl

/-! ## Power-on -/

/-- Settles O24: the reset event of the drawn value, by the configuration. -/
theorem powerOnResetsWithAnySegValue : Obligations.PowerOnResetsWithAnySegValue := by
  intro s slot rest seg he hr
  rw [step_reset (by rw [currentSlot_cons he, hr]), dropSlot_cons he, resetEvent, powerOnReset]
  refine ⟨fun hc => ?_, fun hc => ?_⟩
  · rw [warmReset_composed (s := { s with env := rest }) hc, State.powerOn, Config.curReset]
    simp [hc]
  · rw [warmReset_encoderOnly (s := { s with env := rest }) hc]

/-- Settles O25: the two steps run from power-on with SEG left open. -/
theorem entryPointIsLogOfTickZero : Obligations.EntryPointIsLogOfTickZero := by
  intro seg
  exact ⟨_, _, step_composed rfl rfl, step_composed rfl rfl, rfl, rfl, rfl, rfl, rfl, rfl, rfl⟩

/-! ## Everything a step can answer -/

/-- The states a step can answer, one constructor for each thing a step can do (R52, R75, R84, R97). -/
inductive StepTo (s : State) : State → Prop
  | reset (k : ResetKind) (hr : (currentSlot s).reset = some k) : StepTo s (resetEvent k (dropSlot s))
  | log (hr : (currentSlot s).reset = none) (hc : s.cfg = .composed) (hp : s.ph = phaseLog) :
      StepTo s (setPhase phaseApply (emit (.disp s.cur) (dropSlot s)))
  | apply (hr : (currentSlot s).reset = none) (hc : s.cfg = .composed) (hp : s.ph = phaseApply) :
      StepTo s (enterWait (enc s.cur (dropSlot s)))
  | waitEnds (hr : (currentSlot s).reset = none) (hc : s.cfg = .composed) (hp : s.ph = phaseWait)
      (hdone : (currentSlot s).timerDone = true ∨ s.wt = .done) : StepTo s (leaveWait (dropSlot s))
  | waitHolds (hr : (currentSlot s).reset = none) (hc : s.cfg = .composed) (hp : s.ph = phaseWait)
      (ht : (currentSlot s).timerDone = false) (hw : s.wt ≠ .done) : StepTo s (dropSlot s)
  | adv (hr : (currentSlot s).reset = none) (hc : s.cfg = .composed) (hp : s.ph = phaseAdv) :
      StepTo s (setPhase phaseLog { dropSlot s with cur := advanceDigit s.cur })
  | strobe (hr : (currentSlot s).reset = none) (hc : s.cfg = .encoderOnly) (d : Digit)
      (hs : (currentSlot s).strobe = some d) : StepTo s (enc d (dropSlot s))
  | idle (hr : (currentSlot s).reset = none) (hc : s.cfg = .encoderOnly) (hs : (currentSlot s).strobe = none) :
      StepTo s (dropSlot s)

/-- `StepTo` holds of what `step` answers. -/
theorem stepTo_of_step {s t : State} (h : step s = .next t) : StepTo s t := by
  have answer {u : State} (hu : step s = .next u) : t = u := Host.Outcome.next.inj (h.symm.trans hu)
  rcases step_cases s with ⟨k, hr, hu⟩ | ⟨hr, ⟨hc, hp, hu⟩ | ⟨hc, hp, hu⟩ | ⟨hc, hp, hdone, hu⟩ | ⟨hc, hp, ht, hw, hu⟩ |
    ⟨hc, hp, hu⟩ | ⟨hc, d, hs, hu⟩ | ⟨hc, hs, hu⟩⟩ <;> rw [answer hu]
  · exact .reset k hr
  · exact .log hr hc hp
  · exact .apply hr hc hp
  · exact .waitEnds hr hc hp hdone
  · exact .waitHolds hr hc hp ht hw
  · exact .adv hr hc hp
  · exact .strobe hr hc d hs
  · exact .idle hr hc hs

/-- A step uses up one slot of the schedule and does nothing else to it (log entry 3). -/
theorem step_env {s t : State} (h : step s = .next t) : t.env = s.env.tail := by
  cases stepTo_of_step h <;> simp

/-- No step changes the configuration (R25). -/
theorem step_cfg {s t : State} (h : step s = .next t) : t.cfg = s.cfg := by
  cases stepTo_of_step h <;> simp

/-- Settles O26: of the things a step can do, only a power-on, APPLY and a strobed ENC write SEG. -/
theorem onlyEncAndPowerOnChangeSeg : Obligations.OnlyEncAndPowerOnChangeSeg := by
  intro s t h hne
  have written {d : Digit} (hseg : (enc d (dropSlot s)).seg ≠ s.seg) :
      d.toNat ≤ 9 ∧ romRead d = some (enc d (dropSlot s)).seg := by
    rcases enc_cases d (dropSlot s) with ⟨v, hword, henc⟩ | ⟨-, henc⟩
    · exact ⟨le_of_word hword, by rw [henc, segWrite_seg, hword]⟩
    · exact absurd (by rw [henc, emit_seg, dropSlot_seg]) hseg
  cases stepTo_of_step h with
  | reset k hr =>
    cases k with
    | warm => simp at hne
    | powerOn v => exact .inl ⟨v, hr, rfl⟩
  | apply hr hc hp => exact .inr (.inl ⟨hc, hr, hp, written hne⟩)
  | strobe hr hc d hs => exact .inr (.inr ⟨hc, hr, d, hs, written hne⟩)
  | log | waitEnds | waitHolds | adv | idle => simp at hne

/-- ADV's successor, by the two branches of R86. -/
theorem advanceDigit_cases : ∀ c : Digit,
    c.toNat < 9 ∧ (advanceDigit c).toNat = c.toNat + 1 ∨ 9 ≤ c.toNat ∧ advanceDigit c = 0#4 := by
  decide

/-- Settles O27: of the things a step can do, only a reset event and ADV write CUR. -/
theorem onlyAdvAndResetChangeCur : Obligations.OnlyAdvAndResetChangeCur := by
  intro s t h
  refine ⟨step_cfg h, fun hne => ?_⟩
  cases stepTo_of_step h with
  | reset k hr =>
    cases hc : s.cfg with
    | composed =>
      obtain ⟨hcur, -, -⟩ := resetEvent_composed (s := dropSlot s) hc k
      exact ⟨rfl, .inl ⟨k, hr, hcur⟩⟩
    | encoderOnly =>
      obtain ⟨hcur, -, -⟩ := resetEvent_encoderOnly (s := dropSlot s) hc k
      exact absurd hcur hne
  | adv hr hc hp => exact ⟨hc, .inr ⟨hr, hp, advanceDigit_cases s.cur⟩⟩
  | log | apply | waitEnds | waitHolds | strobe | idle => simp at hne

/-- What ENC does to the console stream: nothing for a digit of 0 to 9, UNIMPL for one of 10 to 15 (R71, R91). -/
theorem enc_console_cases (d : Digit) (s : State) :
    (enc d s).console = s.console ∨ (10 ≤ d.toNat ∧ (enc d s).console = s.console ++ [.unimpl]) := by
  rcases enc_cases d s with ⟨v, -, henc⟩ | ⟨hnone, henc⟩
  · exact .inl (by rw [henc, segWrite_console])
  · exact .inr ⟨(romRead_eq_none_iff d).mp hnone, by rw [henc, emit_console]⟩

/-- Settles O28: of the things a step can do, LOG emits DISP, and APPLY and a strobed ENC emit what ENC emits. -/
theorem everyEventHasItsCause : Obligations.EveryEventHasItsCause := by
  intro s t h hnotPowerOn
  cases stepTo_of_step h with
  | reset k hr =>
    cases k with
    | warm => exact .inl (by simp [resetEvent])
    | powerOn v => exact absurd hr (hnotPowerOn v)
  | log hr hc hp => exact .inr ⟨hr, .inl ⟨hc, hp, rfl⟩⟩
  | apply hr hc hp =>
    exact (enc_console_cases s.cur (dropSlot s)).imp id fun ⟨hinvalid, happended⟩ =>
      ⟨hr, .inr (.inl ⟨hc, hp, hinvalid, happended⟩)⟩
  | strobe hr hc d hs =>
    exact (enc_console_cases d (dropSlot s)).imp id fun ⟨hinvalid, happended⟩ =>
      ⟨hr, .inr (.inr ⟨hc, ⟨d, hs, hinvalid⟩, happended⟩)⟩
  | waitEnds | waitHolds | adv | idle => exact .inl rfl

/-! ## The inert fields of ENCODER_ONLY -/

/-- The state with other values in the fields that ENCODER_ONLY does not have (R14, log entry 7). -/
def withInert (c : Digit) (p : PhaseCode) (w : WaitTimer) (s : State) : State := { s with cur := c, ph := p, wt := w }

/-- ENC neither reads nor writes the inert fields. -/
theorem enc_withInert (c : Digit) (p : PhaseCode) (w : WaitTimer) (d : Digit) (s : State) :
    enc d (withInert c p w s) = withInert c p w (enc d s) := by
  cases h : romRead d with
  | some v => rw [enc_of_word h, enc_of_word h]; rfl
  | none => rw [enc_of_none h, enc_of_none h]; rfl

/-- In ENCODER_ONLY a reset event neither reads nor writes the inert fields (R111). -/
theorem resetEvent_withInert (c : Digit) (p : PhaseCode) (w : WaitTimer) (k : ResetKind) {s : State}
    (hc : s.cfg = .encoderOnly) : resetEvent k (withInert c p w s) = withInert c p w (resetEvent k s) := by
  have hc' : (withInert c p w s).cfg = .encoderOnly := hc
  cases k with
  | warm => rw [resetEvent, resetEvent, warmReset_encoderOnly hc', warmReset_encoderOnly hc]
  | powerOn v =>
    rw [resetEvent, resetEvent, powerOnReset, powerOnReset, warmReset_encoderOnly hc', warmReset_encoderOnly hc]
    rfl

/-- In ENCODER_ONLY a step neither reads nor writes the inert fields (R14). -/
theorem step_withInert (c : Digit) (p : PhaseCode) (w : WaitTimer) {s t : State} (hc : s.cfg = .encoderOnly)
    (h : step s = .next t) : step (withInert c p w s) = .next (withInert c p w t) := by
  have hc' : (withInert c p w s).cfg = .encoderOnly := hc
  cases stepTo_of_step h with
  | reset k hr =>
    rw [← resetEvent_withInert c p w k (s := dropSlot s) hc]
    exact step_reset hr
  | strobe hr _ d hs =>
    rw [← enc_withInert]
    exact step_strobe hc' hr hs
  | idle hr _ hs => exact step_no_strobe hc' hr hs
  | log _ hcomposed | apply _ hcomposed | waitEnds _ hcomposed | waitHolds _ hcomposed | adv _ hcomposed =>
    simp [hc] at hcomposed

/-- Two ENCODER_ONLY blocks that look alike, with the same schedule, differ in the inert fields alone (R127). -/
theorem eq_withInert_of_observe {s s' : State} (hc : s.cfg = .encoderOnly) (hobs : observe s = observe s')
    (henv : s.env = s'.env) : s' = withInert s'.cur s'.ph s'.wt s := by
  cases hc' : s'.cfg with
  | composed => simp [observe, hc, hc'] at hobs
  | encoderOnly =>
    simp only [observe, hc, hc', Observation.encoderOnly.injEq] at hobs
    obtain ⟨hseg, hconsole⟩ := hobs
    cases s'
    simp_all [withInert]

/-- The inert fields are no part of an ENCODER_ONLY block's observation (R127). -/
theorem observe_withInert (c : Digit) (p : PhaseCode) (w : WaitTimer) {s : State} (hc : s.cfg = .encoderOnly) :
    observe (withInert c p w s) = observe s := by
  simp [observe, withInert, hc]

/-- Settles O29: the second block is the first with other inert fields, and steps pass over those. -/
theorem encoderOnlyHasNoSequencer : Obligations.EncoderOnlyHasNoSequencer := by
  intro s s' t t' hc hobs henv ht ht'
  have unchanged : t = withInert s.cur s.ph s.wt t :=
    Host.Outcome.next.inj (ht.symm.trans (step_withInert s.cur s.ph s.wt hc ht))
  have same : t' = withInert s'.cur s'.ph s'.wt t := by
    rw [eq_withInert_of_observe hc hobs henv] at ht'
    exact Host.Outcome.next.inj (ht'.symm.trans (step_withInert _ _ _ hc ht))
  have hct : t.cfg = .encoderOnly := (step_cfg ht).trans hc
  refine ⟨by rw [unchanged, withInert], by rw [unchanged, withInert], by rw [unchanged, withInert], ?_, ?_⟩
  · rw [same, observe_withInert _ _ _ hct]
  · rw [same, withInert]

/-! ## The integers of a harness -/

/-- An integer of 0 to 15 is driven as the digit of that value (R74). -/
theorem drivenDigit_of_range {n : Int} (h0 : 0 ≤ n) (h15 : n ≤ 15) :
    ∃ d : Digit, drivenDigit n = some d ∧ (d.toNat : Int) = n := by
  refine ⟨BitVec.ofNat 4 n.toNat, if_pos ⟨h0, h15⟩, ?_⟩
  rw [BitVec.toNat_ofNat]
  omega

/-- Any other integer is refused (R74, D4). -/
theorem drivenDigit_of_outside {n : Int} (h : n < 0 ∨ 15 < n) : drivenDigit n = none :=
  if_neg (by omega)

/-- Settles O30, by whether the integer is driven and whether the digit driven has a ROM word. -/
theorem harnessIntegersAreRefusedNotTruncated : Obligations.HarnessIntegersAreRefusedNotTruncated := by
  intro n s rest hc he
  have driven {d : Digit} (hd : drivenDigit n = some d) : step s = .next (enc d { s with env := rest }) := by
    have hslot : currentSlot s = .enc d := by rw [currentSlot_cons he, harnessRequest, hd]
    rw [step_strobe hc (by rw [hslot]; rfl) (by rw [hslot]; rfl), dropSlot_cons he]
  refine ⟨fun h0 h9 => ?_, fun h10 h15 => ?_, fun hout => ?_⟩
  · obtain ⟨d, hd, hvalue⟩ := drivenDigit_of_range h0 (by omega)
    obtain ⟨v, hv⟩ := exists_word_of_le (d := d) (by omega)
    exact ⟨d, v, hvalue, hv, by rw [driven hd, enc_of_word hv, segWrite]⟩
  · obtain ⟨d, hd, hvalue⟩ := drivenDigit_of_range (by omega) h15
    have hnone : romRead d = none := (romRead_eq_none_iff d).mpr (by omega)
    rw [driven hd, enc_of_none hnone, emit]
  · have hslot : currentSlot s = .quiet := by rw [currentSlot_cons he, harnessRequest, drivenDigit_of_outside hout]
    rw [step_no_strobe hc (by rw [hslot]; rfl) (by rw [hslot]; rfl), dropSlot_cons he]

/-! ## The console's text -/

/-- A digit is written in decimal (R58, D11). -/
theorem decimalText_eq_toString : ∀ d : Digit, decimalText d = (toString d.toNat).toList := by
  decide

/-- The characters of every event's text are ASCII (R58, log entry 17). -/
theorem asciiCodes_eventText_lt (e : ConsoleEvent) : ∀ code ∈ asciiCodes (eventText e), code < 128 := by
  cases e with
  | disp d => revert d; decide
  | unimpl => decide

/-- Settles O42: the text before the digit is the rule's, and the digit's text is its decimal. -/
theorem consoleLinesReadAsTheRuleSays : Obligations.ConsoleLinesReadAsTheRuleSays := by
  intro eol
  have before : "Displaying number: ".toList = dispText := by decide
  refine ⟨fun d => ?_, congrArg (· ++ eol) (by decide), asciiCodes_eventText_lt⟩
  rw [eventLine, eventText, String.toList_append, before, decimalText_eq_toString]

end Sys2Proof.Machine
end

-- Proofs about reachable states (10_state.md R16, R26, R27).
section
namespace Sys2Proof.Machine

/-! ## ADV and the ROM -/

/-- Where ADV's successor is not 0, the digit before it is the digit ADV left (R86). -/
theorem advanceDigit_sub_one : ∀ c : Digit, advanceDigit c ≠ 0#4 → advanceDigit c - 1#4 = c := by decide

/-- ADV always moves CUR (R86). -/
theorem advanceDigit_ne : ∀ c : Digit, advanceDigit c ≠ c := by decide

/-- The word of a digit is never the word of its successor (R76, R86). -/
theorem romRead_advanceDigit_ne (c : Digit) : romRead (advanceDigit c) ≠ romRead c := by
  have hvalid : (romRead (advanceDigit c)).isSome = true := (romRead_isSome_iff _).mpr (advanceDigit_le c)
  exact fun same => advanceDigit_ne c (romRead_injective _ _ hvalid same)

/-- Settles O35: SEG keeps the word of the digit that ADV left, until APPLY writes the successor's. -/
theorem segLagsCurUntilApply : Obligations.SegLagsCurUntilApply := by
  intro s hshown
  obtain ⟨v, hv⟩ := exists_word_of_le (advanceDigit_le s.cur)
  have hlag : romRead (advanceDigit s.cur) ≠ some s.seg := hshown ▸ romRead_advanceDigit_ne s.cur
  exact ⟨_, _, _, exec_adv s, exec_log _, exec_apply_of_word hv, rfl, rfl, rfl, hlag, hlag, rfl, hv⟩

/-! ## The invariant -/

/-- In LOG with CUR = 0 and the timer idle, as after any reset, nothing is asked of SEG. -/
theorem sequencerInv_of_resetValues {s : State}
    (h : s.cfg = .composed → s.cur = 0#4 ∧ s.ph = phaseLog ∧ s.wt = .idle) : SequencerInv s := by
  intro hc
  obtain ⟨hcur, hph, hwt⟩ := h hc
  refine ⟨by simp [CurInRange, hcur], by simp [TimerMatchesPhase, hph, hwt], ?_, ?_⟩
  · simp [hph]
  · exact fun _ hne => absurd hcur hne

/-- Settles O31: power-on gives the reset values. -/
theorem powerOnMeetsTheInvariant : Obligations.PowerOnMeetsTheInvariant :=
  ⟨fun _ _ _ => sequencerInv_of_resetValues fun _ => ⟨rfl, rfl, rfl⟩,
    sequencerInv_of_resetValues fun _ => ⟨rfl, rfl, rfl⟩, Nat.zero_le 9, fun h => nomatch h⟩

/-- Settles O32, by what the step did. LOG hands SEG's lag on to APPLY, APPLY makes SEG show CUR, WAIT keeps that, and ADV turns
it into the lag. -/
theorem everyStepKeepsTheInvariant : Obligations.EveryStepKeepsTheInvariant := by
  intro s t hinv h
  cases stepTo_of_step h with
  | reset k =>
    exact sequencerInv_of_resetValues fun hc => resetEvent_composed (s := dropSlot s) (by simpa using hc) k
  | log _ hc hp =>
    obtain ⟨hrange, htimer, -, hlag⟩ := hinv hc
    refine fun _ => ⟨hrange, ?_, by simp, fun _ => hlag (.inl hp)⟩
    simpa [TimerMatchesPhase, hp] using htimer
  | apply _ hc hp =>
    obtain ⟨hrange, -, -⟩ := hinv hc
    obtain ⟨v, hv⟩ := exists_word_of_le hrange
    rw [enc_of_word hv]
    exact fun _ => ⟨hrange, by simp [TimerMatchesPhase], fun _ => hv, by simp⟩
  | waitEnds _ hc hp =>
    obtain ⟨hrange, -, hshown, -⟩ := hinv hc
    exact fun _ => ⟨hrange, by simp [TimerMatchesPhase], fun _ => hshown (.inl hp), by simp⟩
  | waitHolds _ hc => exact fun _ => hinv hc
  | adv _ hc hp =>
    obtain ⟨-, htimer, hshown, -⟩ := hinv hc
    refine fun _ => ⟨advanceDigit_le s.cur, ?_, by simp, fun _ hne => ?_⟩
    · simpa [TimerMatchesPhase, hp] using htimer
    · exact (congrArg romRead (advanceDigit_sub_one s.cur hne)).trans (hshown (.inr hp))
  | strobe _ hc | idle _ hc => exact fun hcomposed => by simp [hc] at hcomposed

/-! ## Runs -/

/-- What every step keeps, every run keeps. -/
theorem runSteps_keeps {P : State → Prop} (keeps : ∀ s t, P s → step s = .next t → P t) (n : Nat) {s t : State}
    (hs : P s) (h : runSteps n s = .next t) : P t := by
  induction n generalizing s with
  | zero => exact Host.Outcome.next.inj h ▸ hs
  | succ n ih =>
    obtain ⟨u, hu⟩ := step_completes s
    exact ih (keeps s u hs hu) (run_succ hu n ▸ h)

/-- What reachable states of COMPOSED have: the invariant and a stream without UNIMPL (R16, R83). -/
def ComposedSafe (s : State) : Prop := s.cfg = .composed ∧ SequencerInv s ∧ ConsoleEvent.unimpl ∉ s.console

/-- UNIMPL would need an APPLY with CUR from 10 on, which the invariant shuts out (R83). -/
theorem step_keeps_composedSafe (s t : State) (hs : ComposedSafe s) (h : step s = .next t) : ComposedSafe t := by
  obtain ⟨hc, hinv, hnever⟩ := hs
  obtain ⟨hrange, -, -⟩ := hinv hc
  refine ⟨(step_cfg h).trans hc, everyStepKeepsTheInvariant s t hinv h, ?_⟩
  by_cases hpower : ∃ v, (currentSlot s).reset = some (.powerOn v)
  · obtain ⟨v, hr⟩ := hpower
    rw [Host.Outcome.next.inj (h.symm.trans (step_reset hr))]
    exact List.not_mem_nil
  · rcases everyEventHasItsCause s t h (not_exists.mp hpower) with hkept | ⟨-, ⟨-, -, hdisp⟩ | ⟨-, -, hinvalid, -⟩ | ⟨hc', -⟩⟩
    · rwa [hkept]
    · simp [hdisp, hnever]
    · exact absurd (hinvalid.trans hrange) (by decide)
    · simp [hc] at hc'

/-- Every state reachable from power-on in COMPOSED is safe, whatever the environment does (R16, R26, R83). -/
theorem composedSafe_of_run {seg : SegVec} {env : List EnvSlot} {n : Nat} {t : State}
    (h : runSteps n { State.powerOn .composed seg with env := env } = .next t) : ComposedSafe t :=
  runSteps_keeps step_keeps_composedSafe n ⟨rfl, powerOnMeetsTheInvariant.1 .composed seg env, List.not_mem_nil⟩ h

/-- Settles O33. -/
theorem composedRunsStayInRangeAndNeverEmitUnimpl : Obligations.ComposedRunsStayInRangeAndNeverEmitUnimpl := by
  intro seg env n t h
  obtain ⟨hc, hinv, hnever⟩ := composedSafe_of_run h
  exact ⟨(hinv hc).1, hnever⟩

end Sys2Proof.Machine
end

-- Proofs about runs of complete ticks (30_encoding.md R57, 41_sequencer.md R88, R89).
section
namespace Sys2Proof.Machine

/-! ## One tick -/

/-- A step in phase APPLY of a digit with a ROM word (R82). -/
theorem step_apply_of_word {s : State} {slot : EnvSlot} {rest : List EnvSlot} {v : SegVec} (hc : s.cfg = .composed)
    (hp : s.ph = phaseApply) (he : s.env = slot :: rest) (hr : slot.reset = none) (hv : romRead s.cur = some v) :
    step s = .next { s with seg := v, ph := phaseWait, wt := .running, env := rest } := by
  rw [step_apply hc hp he hr, enc_of_word hv, segWrite, enterWait]

/-- The state one complete tick leaves, where CUR has the ROM word `v` and `rest` is the schedule after the tick (R78). -/
def afterTick (v : SegVec) (rest : List EnvSlot) (s : State) : State :=
  { s with cur := advanceDigit s.cur, ph := phaseLog, seg := v, wt := .idle, console := s.console ++ [.disp s.cur],
           env := rest }

section afterTick
variable (v : SegVec) (rest : List EnvSlot) (s : State)
@[simp] theorem afterTick_cfg : (afterTick v rest s).cfg = s.cfg := rfl
@[simp] theorem afterTick_cur : (afterTick v rest s).cur = advanceDigit s.cur := rfl
@[simp] theorem afterTick_ph : (afterTick v rest s).ph = phaseLog := rfl
@[simp] theorem afterTick_seg : (afterTick v rest s).seg = v := rfl
@[simp] theorem afterTick_console : (afterTick v rest s).console = s.console ++ [.disp s.cur] := rfl
@[simp] theorem afterTick_env : (afterTick v rest s).env = rest := rfl
end afterTick

/-! ## Any number of ticks -/

/-- The digits of one LOG more are those before and the next digit modulo 10 (R88). -/
theorem displayedFrom_succ (c n : Nat) :
    displayedFrom c (n + 1) = displayedFrom c n ++ [.disp (BitVec.ofNat 4 ((c + n) % 10))] := by
  simp [displayedFrom, List.range_succ, Config.modulus]

@[simp] theorem displayedFrom_zero (c : Nat) : displayedFrom c 0 = [] := rfl

/-- A digit is the digit of its value. -/
theorem ofNat_of_toNat_eq {d : Digit} {m : Nat} (h : d.toNat = m) : BitVec.ofNat 4 m = d := by
  simp [← h]

/-- What `n` complete ticks from `s` leave in `t` (R88). -/
structure AfterTicks (n : Nat) (s t : State) : Prop where
  cfg : t.cfg = .composed
  ph : t.ph = phaseLog
  cur : t.cur.toNat = (s.cur.toNat + n) % 10
  console : t.console = s.console ++ displayedFrom s.cur.toNat n
  segKept : n = 0 → t.seg = s.seg
  segShown : n ≠ 0 → romRead (BitVec.ofNat 4 ((s.cur.toNat + n - 1) % 10)) = some t.seg

theorem AfterTicks.zero {s : State} (hc : s.cfg = .composed) (hp : s.ph = phaseLog) (hcur : s.cur.toNat ≤ 9) :
    AfterTicks 0 s s where
  cfg := hc
  ph := hp
  cur := by omega
  console := by simp
  segKept := fun _ => rfl
  segShown := fun h => absurd rfl h

/-- After any number of ticks CUR has a ROM word. -/
theorem AfterTicks.exists_word {n : Nat} {s t : State} (h : AfterTicks n s t) : ∃ v, romRead t.cur = some v :=
  exists_word_of_le (by have := h.cur; omega)

theorem AfterTicks.succ {n : Nat} {s t : State} (h : AfterTicks n s t) {v : SegVec} (hv : romRead t.cur = some v)
    (rest : List EnvSlot) : AfterTicks (n + 1) s (afterTick v rest t) where
  cfg := h.cfg
  ph := rfl
  cur := by rw [afterTick_cur, advanceDigit_toNat _ (le_of_word hv), h.cur]; omega
  console := by
    rw [afterTick_console, h.console, displayedFrom_succ, ofNat_of_toNat_eq h.cur, List.append_assoc]
  segKept := fun h0 => absurd h0 n.succ_ne_zero
  segShown := fun _ => by rw [← Nat.add_assoc, Nat.add_sub_cancel, ofNat_of_toNat_eq h.cur, hv, afterTick_seg]

/-- Complete ticks one after another, whatever time their WAITs take (R88). -/
theorem run_ticks (holds : List Nat) (s : State) (rest : List EnvSlot) (hc : s.cfg = .composed)
    (hcur : s.cur.toNat ≤ 9) (hp : s.ph = phaseLog) (he : s.env = ticksSlots holds ++ rest) :
    ∃ t, runSteps (ticksSlots holds).length s = .next t ∧ t.env = rest ∧ AfterTicks holds.length s t := by
  induction holds using List.reverseRecOn generalizing rest with
  | nil => exact ⟨s, run_zero s, he, .zero hc hp hcur⟩
  | append_singleton earlier hold ih =>
    have split : ticksSlots (earlier ++ [hold]) = ticksSlots earlier ++ tickSlots hold := by simp [ticksSlots]
    obtain ⟨t, hrun, henv, ht⟩ := ih (tickSlots hold ++ rest) (by rw [he, split, List.append_assoc])
    obtain ⟨v, hv⟩ := ht.exists_word
    refine ⟨afterTick v rest t, ?_, rfl, ?_⟩
    · rw [split, List.length_append, run_add hrun]
      exact run_tick hold t v rest ht.cfg ht.ph hv henv
    · rw [List.length_append, List.length_singleton]
      exact ht.succ hv rest

/-- Settles O36. -/
theorem ticksCountModuloTen : Obligations.TicksCountModuloTen := by
  intro holds s rest hc hcur hp he
  obtain ⟨t, hrun, henv, ht⟩ := run_ticks holds s rest hc hcur hp he
  exact ⟨t, hrun, ht.cur, ht.ph, ht.cfg, henv, ht.console, fun h => ht.segKept (by simp [h]),
    fun h => ht.segShown (by simpa using h)⟩

/-- Settles O37: the run of the earlier ticks, then tick k by its first two steps and as a whole. -/
theorem tickKShowsKModTen : Obligations.TickKShowsKModTen := by
  intro seg holds hold rest
  obtain ⟨a, hrun, henv, ha⟩ := run_ticks holds
    { State.powerOn .composed seg with env := ticksSlots holds ++ tickSlots hold ++ rest } (tickSlots hold ++ rest)
    rfl (Nat.zero_le 9) rfl (List.append_assoc ..)
  have hcur : a.cur.toNat = holds.length % 10 := by simpa [State.powerOn, Config.curReset] using ha.cur
  obtain ⟨v, hv⟩ := ha.exists_word
  have hlog := step_log ha.cfg ha.ph henv rfl
  have happly := step_apply_of_word
    (s := { a with ph := phaseApply, console := a.console ++ [.disp a.cur], env := (tickSlots hold ++ rest).tail })
    ha.cfg rfl rfl rfl hv
  have htick := run_tick hold a v rest ha.cfg ha.ph hv henv
  rw [tickSlots_length] at htick
  have hrest := (run_succ happly (hold + 2)).symm.trans ((run_succ hlog (hold + 3)).symm.trans htick)
  refine ⟨a, _, _, _, hrun, hlog, happly, hrest, ?_, ?_, ?_, rfl, rfl⟩
  · rw [ofNat_of_toNat_eq hcur]
  · rw [ofNat_of_toNat_eq hcur]
    exact hv
  · rw [advanceDigit_toNat _ (le_of_word hv), hcur]
    omega

/-! ## Traces -/

/-- A trace whose first item takes a step. -/
theorem runItems_cons {s t : State} {i : TraceItem} {slot : EnvSlot} (hi : itemSlot s i = some (some slot))
    (hstep : stepWith slot s = .next t) (rest : List TraceItem) : runItems (i :: rest) s = runItems rest t := by
  simp only [runItems, hi, hstep]

/-- A trace whose first item is allowed and takes no step of its own (log entry 16). -/
theorem runItems_cons_no_step {s : State} {i : TraceItem} (hi : itemSlot s i = some none) (rest : List TraceItem) :
    runItems (i :: rest) s = runItems rest s := by
  simp only [runItems, hi]

/-- A trace in two parts. -/
theorem runItems_append {first : List TraceItem} {s t : State} (h : runItems first s = some t)
    (second : List TraceItem) : runItems (first ++ second) s = runItems second t := by
  induction first generalizing s with
  | nil => exact Option.some.inj h ▸ rfl
  | cons i rest ih =>
    rw [List.cons_append]
    cases hi : itemSlot s i with
    | none => simp [runItems, hi] at h
    | some taken =>
      cases taken with
      | none =>
        rw [runItems_cons_no_step hi] at h ⊢
        exact ih h
      | some slot =>
        obtain ⟨u, hu⟩ : ∃ u, stepWith slot s = .next u := step_completes _
        rw [runItems_cons hi hu] at h ⊢
        exact ih h

theorem atPhase_eq_true {p : PhaseCode} {s : State} (hc : s.cfg = .composed) (hp : s.ph = p) : atPhase p s = true :=
  decide_eq_true ⟨hc, hp⟩

section items
variable {s : State} (hc : s.cfg = .composed)
include hc

theorem itemSlot_log (hp : s.ph = phaseLog) : itemSlot s .log = some (some .quiet) := if_pos (atPhase_eq_true hc hp)
theorem itemSlot_apply (hp : s.ph = phaseApply) : itemSlot s .apply = some (some .quiet) := if_pos (atPhase_eq_true hc hp)
theorem itemSlot_wait (hp : s.ph = phaseWait) : itemSlot s .wait = some none := if_pos (atPhase_eq_true hc hp)
theorem itemSlot_timerDone (hp : s.ph = phaseWait) : itemSlot s .timerDone = some (some .timer) :=
  if_pos (atPhase_eq_true hc hp)
theorem itemSlot_adv (hp : s.ph = phaseAdv) : itemSlot s .adv = some (some .quiet) := if_pos (atPhase_eq_true hc hp)

variable (rest : List TraceItem)

theorem runItems_log (hp : s.ph = phaseLog) : runItems (.log :: rest) s =
    runItems rest { s with ph := phaseApply, console := s.console ++ [.disp s.cur] } :=
  runItems_cons (itemSlot_log hc hp) (step_log hc hp rfl rfl) rest

theorem runItems_apply (hp : s.ph = phaseApply) {v : SegVec} (hv : romRead s.cur = some v) :
    runItems (.apply :: rest) s = runItems rest { s with seg := v, ph := phaseWait, wt := .running } :=
  runItems_cons (itemSlot_apply hc hp) (step_apply_of_word hc hp rfl rfl hv) rest

theorem runItems_wait (hp : s.ph = phaseWait) : runItems (.wait :: rest) s = runItems rest s :=
  runItems_cons_no_step (itemSlot_wait hc hp) rest

theorem runItems_timerDone (hp : s.ph = phaseWait) : runItems (.timerDone :: rest) s =
    runItems rest { s with ph := phaseAdv, wt := .idle } :=
  runItems_cons (itemSlot_timerDone hc hp) (step_wait_timer hc hp rfl rfl rfl) rest

theorem runItems_adv (hp : s.ph = phaseAdv) : runItems (.adv :: rest) s =
    runItems rest { s with ph := phaseLog, cur := advanceDigit s.cur } :=
  runItems_cons (itemSlot_adv hc hp) (step_adv hc hp rfl rfl) rest

end items

/-- `TICK` in phase LOG is one complete tick, with the schedule left as it was (R57). -/
theorem runItems_tickItems {s : State} {v : SegVec} (hc : s.cfg = .composed) (hp : s.ph = phaseLog)
    (hv : romRead s.cur = some v) : runItems tickItems s = some (afterTick v s.env s) := by
  simp only [tickItems, runItems_log, runItems_apply (v := v), runItems_wait, runItems_timerDone, runItems_adv, hc, hp, hv]
  rw [runItems, afterTick, hc]

/-- `n` TICKs one after another (R57, R88). -/
theorem runItems_ticks (n : Nat) {s : State} (hc : s.cfg = .composed) (hp : s.ph = phaseLog)
    (hcur : s.cur.toNat ≤ 9) :
    ∃ t, runItems (List.replicate n tickItems).flatten s = some t ∧ t.env = s.env ∧ AfterTicks n s t := by
  induction n with
  | zero => exact ⟨s, rfl, rfl, .zero hc hp hcur⟩
  | succ n ih =>
    obtain ⟨t, hrun, henv, ht⟩ := ih
    obtain ⟨v, hv⟩ := ht.exists_word
    refine ⟨afterTick v t.env t, ?_, henv, ht.succ hv t.env⟩
    rw [List.replicate_succ', List.flatten_concat, runItems_append hrun]
    exact runItems_tickItems ht.cfg ht.ph hv

theorem runTrace_run (n : Nat) (s : State) :
    runTrace [.run n] s = runItems (List.replicate n tickItems).flatten s := by
  simp [runTrace, expandTrace, expandItem]

theorem runTrace_replicate_tick (n : Nat) (s : State) :
    runTrace (List.replicate n .tick) s = runItems (List.replicate n tickItems).flatten s := by
  simp [runTrace, expandTrace, expandItem, List.flatMap_replicate]

/-- Settles O40: both traces expand to the same items, and TICK's first item is LOG. -/
theorem runExpandsToTicksAtLog : Obligations.RunExpandsToTicksAtLog := by
  intro s
  refine ⟨fun hc hp hcur n => ?_, fun hoff => ?_⟩
  · obtain ⟨t, hrun, henv, ht⟩ := runItems_ticks n hc hp hcur
    exact ⟨t, (runTrace_run n s).trans hrun, (runTrace_replicate_tick n s).trans hrun, ht.ph, ht.cur, henv, ht.console⟩
  · have refused : itemSlot s .log = none := if_neg (by simpa [atPhase, imp_iff_not_or] using hoff)
    simp [runTrace, expandTrace, expandItem, tickItems, runItems, refused]

/-! ## The reachable states -/

/-- A state COMPOSED can reach from power-on. -/
def ReachableComposed (t : State) : Prop :=
  ∃ seg env n, runSteps n { State.powerOn .composed seg with env := env } = .next t

theorem ReachableComposed.of_step {s t : State} (hs : ReachableComposed s) (h : step s = .next t) : ReachableComposed t := by
  obtain ⟨seg, env, n, hrun⟩ := hs
  exact ⟨seg, env, n + 1, (run_add hrun 1).trans (run_succ h 0)⟩

/-- In a reachable state in LOG, SEG shows the digit before CUR, once CUR has left 0 (R26, R27). -/
theorem ReachableComposed.segLag {t : State} (ht : ReachableComposed t) (hp : t.ph = phaseLog) (h0 : t.cur ≠ 0#4) :
    romRead (t.cur - 1#4) = some t.seg := by
  obtain ⟨seg, env, n, hrun⟩ := ht
  obtain ⟨hc, hinv, -⟩ := composedSafe_of_run hrun
  obtain ⟨-, -, -, hlag⟩ := hinv hc
  exact hlag (.inl hp) h0

/-- LOG is reached with every digit, with any schedule to come, and with any SEG where no digit has been rendered yet. -/
theorem exists_reachable_log {d : Digit} (hd : d.toNat ≤ 9) (v : SegVec) (rest : List EnvSlot) :
    ∃ t, ReachableComposed t ∧ t.cfg = .composed ∧ t.ph = phaseLog ∧ t.cur = d ∧ (d = 0#4 → t.seg = v) ∧
      t.env = rest := by
  obtain ⟨t, hrun, henv, ht⟩ := run_ticks (List.replicate d.toNat 0)
    { State.powerOn .composed v with env := ticksSlots (List.replicate d.toNat 0) ++ rest } rest rfl (Nat.zero_le 9) rfl rfl
  rw [List.length_replicate] at ht
  have hcur : t.cur.toNat = (0 + d.toNat) % 10 := ht.cur
  exact ⟨t, ⟨v, _, _, hrun⟩, ht.cfg, ht.ph, BitVec.eq_of_toNat_eq (by omega), fun h0 => ht.segKept (by simp [h0]), henv⟩

/-- Settles O34. What is reachable meets the invariant; and each triple is met within the tick of its digit, with SEG before
APPLY as the invariant fixes it, or as it came up. -/
theorem reachableTriplesAreExactlyThese : Obligations.ReachableTriplesAreExactlyThese := by
  intro d p v
  constructor
  · rintro ⟨seg, env, n, t, hrun, rfl, rfl, rfl⟩
    obtain ⟨hc, hinv, -⟩ := composedSafe_of_run hrun
    obtain ⟨hrange, -, hshown, hlag⟩ := hinv hc
    exact ⟨hrange, hshown, fun hp => or_iff_not_imp_left.mpr (hlag hp)⟩
  · rintro ⟨hrange, hshown, hlag⟩
    obtain ⟨t, hreach, hc, hph, hcur, hfirst, henv⟩ := exists_reachable_log hrange v [.quiet, .quiet, .timer]
    have before (hp : p = phaseLog ∨ p = phaseApply) : t.seg = v := by
      by_cases h0 : d = 0#4
      · exact hfirst h0
      · have hword : romRead (t.cur - 1#4) = some t.seg := hreach.segLag hph (hcur ▸ h0)
        exact Option.some.inj (by rw [← hword, hcur, (hlag hp).resolve_left h0])
    have after (hp : p = phaseWait ∨ p = phaseAdv) : romRead t.cur = some v := hcur ▸ hshown hp
    have hlog := step_log hc hph henv rfl
    suffices ∃ u, ReachableComposed u ∧ u.cur = d ∧ u.ph = p ∧ u.seg = v by
      obtain ⟨u, ⟨seg, env, n, hrun⟩, hu⟩ := this
      exact ⟨seg, env, n, u, hrun, hu⟩
    rcases phase_cases p with rfl | rfl | rfl | rfl
    · exact ⟨t, hreach, hcur, hph, before (.inl rfl)⟩
    · exact ⟨_, hreach.of_step hlog, hcur, rfl, before (.inr rfl)⟩
    · exact ⟨_, (hreach.of_step hlog).of_step (step_apply_of_word (by exact hc) rfl rfl rfl (after (.inl rfl))), hcur, rfl, rfl⟩
    · exact ⟨_, ((hreach.of_step hlog).of_step (step_apply_of_word (by exact hc) rfl rfl rfl (after (.inr rfl)))).of_step
        (step_wait_timer (by exact hc) rfl rfl rfl rfl), hcur, rfl, rfl⟩

end Sys2Proof.Machine
end

-- Proofs about runs under any environment without RESET (41_sequencer.md R88, R90, 70_reset_and_hazards.md R126).
section
namespace Sys2Proof.Machine

/-! ## The order of the digits -/

theorem Uninterrupted.tail {slots : List EnvSlot} (h : Uninterrupted slots) : Uninterrupted slots.tail :=
  fun slot hmem => h slot (List.mem_of_mem_tail hmem)

/-- Under a schedule without RESET no step sees one. -/
theorem currentSlot_reset_of_uninterrupted {s : State} (h : Uninterrupted s.env) : (currentSlot s).reset = none := by
  cases he : s.env with
  | nil => rw [currentSlot_nil he]; rfl
  | cons slot rest =>
    rw [currentSlot_cons he]
    exact h slot (by rw [he]; exact List.mem_cons_self)

/-- The block has logged the digits from `c` on in order, after the events `before`, and CUR is the next digit to log in LOG and
the last one logged otherwise (R88). -/
def LogsInOrder (c : Nat) (before : List ConsoleEvent) (t : State) : Prop :=
  ∃ n, t.console = before ++ displayedFrom c n ∧ (t.ph = phaseLog → t.cur.toNat = (c + n) % 10) ∧
    (t.ph ≠ phaseLog → 1 ≤ n ∧ t.cur.toNat = (c + n - 1) % 10)

/-- CUR is always a digit of 0 to 9 while the digits are logged in order. -/
theorem LogsInOrder.cur_le {c : Nat} {before : List ConsoleEvent} {t : State} (h : LogsInOrder c before t) :
    t.cur.toNat ≤ 9 := by
  obtain ⟨n, -, hlog, helse⟩ := h
  by_cases hp : t.ph = phaseLog
  · have := hlog hp
    omega
  · obtain ⟨-, hcur⟩ := helse hp
    omega

/-- Every step without RESET keeps the order: LOG takes the next digit, ADV names the one after it, and the other steps leave
both as they are. -/
theorem LogsInOrder.of_step {c : Nat} {before : List ConsoleEvent} {s t : State} (hs : LogsInOrder c before s)
    (hc : s.cfg = .composed) (hr : (currentSlot s).reset = none) (h : step s = .next t) : LogsInOrder c before t := by
  have hrange := hs.cur_le
  obtain ⟨n, hconsole, hlog, helse⟩ := hs
  cases stepTo_of_step h with
  | reset k hk => simp [hr] at hk
  | log _ _ hp =>
    refine ⟨n + 1, ?_, by simp, fun _ => ⟨by omega, hlog hp⟩⟩
    rw [displayedFrom_succ, ofNat_of_toNat_eq (hlog hp), ← List.append_assoc, ← hconsole]
    rfl
  | apply _ _ hp =>
    obtain ⟨v, hv⟩ := exists_word_of_le hrange
    rw [enc_of_word hv]
    exact ⟨n, hconsole, by simp, fun _ => helse (by simp [hp])⟩
  | waitEnds _ _ hp => exact ⟨n, hconsole, by simp, fun _ => helse (by simp [hp])⟩
  | waitHolds => exact ⟨n, hconsole, hlog, helse⟩
  | adv _ _ hp =>
    obtain ⟨hn, hcur⟩ := helse (by simp [hp])
    refine ⟨n, hconsole, fun _ => ?_, by simp⟩
    have hnext : (advanceDigit s.cur).toNat = (s.cur.toNat + 1) % 10 := advanceDigit_toNat _ hrange
    exact hnext.trans (by omega)
  | strobe _ hencoder | idle _ hencoder => simp [hc] at hencoder

/-- Settles O38: the order holds before the first step, and every step of the run keeps it. -/
theorem digitsAreLoggedInOrderWhateverTheTimerDoes : Obligations.DigitsAreLoggedInOrderWhateverTheTimerDoes := by
  rintro slots s t hc hcur hp hfree rfl hrun
  have start : LogsInOrder s.cur.toNat s.console s := ⟨0, by simp, fun _ => by omega, fun hne => absurd hp hne⟩
  have keeps (u w : State) : (u.cfg = .composed ∧ Uninterrupted u.env ∧ LogsInOrder s.cur.toNat s.console u) →
      step u = .next w → w.cfg = .composed ∧ Uninterrupted w.env ∧ LogsInOrder s.cur.toNat s.console w := by
    rintro ⟨huc, hufree, hu⟩ h
    exact ⟨(step_cfg h).trans huc, step_env h ▸ hufree.tail, hu.of_step huc (currentSlot_reset_of_uninterrupted hufree) h⟩
  obtain ⟨-, -, hend⟩ := runSteps_keeps keeps _ ⟨hc, hfree, start⟩ hrun
  exact hend

/-! ## Endless runs -/

/-- The step from one state of an endless run to the next. -/
theorem step_stateUnder (E : Nat → EnvSlot) (s : State) (k : Nat) :
    step { stateUnder E s k with env := [E k] } = .next (stateUnder E s (k + 1)) := by
  obtain ⟨t, ht⟩ := step_completes { stateUnder E s k with env := [E k] }
  simp only [stateUnder, ht]

/-- CUR at most 9 is kept by every step (R16). -/
theorem step_keeps_curInRange {s t : State} (hs : CurInRange s) (h : step s = .next t) : CurInRange t := by
  obtain ⟨-, hchange⟩ := onlyAdvAndResetChangeCur s t h
  unfold CurInRange at hs ⊢
  by_cases hkept : t.cur = s.cur
  · rwa [hkept]
  · rcases hchange hkept with ⟨-, ⟨k, -, hzero⟩ | ⟨-, -, ⟨hlt, hnext⟩ | ⟨-, hzero⟩⟩⟩
    · simp [hzero]
    · omega
    · simp [hzero]

section endless
variable {E : Nat → EnvSlot} {s : State}

theorem stateUnder_cfg (hc : s.cfg = .composed) (k : Nat) : (stateUnder E s k).cfg = .composed := by
  induction k with
  | zero => exact hc
  | succ k ih => exact (step_cfg (step_stateUnder E s k)).trans ih

theorem stateUnder_curInRange (hcur : s.cur.toNat ≤ 9) (k : Nat) : (stateUnder E s k).cur.toNat ≤ 9 := by
  induction k with
  | zero => exact hcur
  | succ k ih => exact step_keeps_curInRange (s := { stateUnder E s k with env := [E k] }) ih (step_stateUnder E s k)

/-- From state `k` on, the block comes to LOG again with the next digit. -/
def ComesToNextDigit (E : Nat → EnvSlot) (s : State) (k : Nat) : Prop :=
  ∃ j, k < j ∧ (stateUnder E s j).ph = phaseLog ∧ (stateUnder E s j).cur = advanceDigit (stateUnder E s k).cur

/-- A step that keeps CUR may be put before. -/
theorem ComesToNextDigit.of_succ {k : Nat} (h : ComesToNextDigit E s (k + 1))
    (hkept : (stateUnder E s (k + 1)).cur = (stateUnder E s k).cur) : ComesToNextDigit E s k := by
  obtain ⟨j, hj, hp, hcur⟩ := h
  exact ⟨j, by omega, hp, hkept ▸ hcur⟩

variable (hc : s.cfg = .composed) (hnever : NeverReset E)
include hc hnever

theorem stateUnder_succ_of_log {k : Nat} (hp : (stateUnder E s k).ph = phaseLog) : stateUnder E s (k + 1) =
    setPhase phaseApply (emit (.disp (stateUnder E s k).cur) { stateUnder E s k with env := [] }) :=
  Host.Outcome.next.inj ((step_stateUnder E s k).symm.trans
    (step_log (by exact stateUnder_cfg hc k) (by exact hp) rfl (hnever k)))

theorem stateUnder_succ_of_apply {k : Nat} (hp : (stateUnder E s k).ph = phaseApply) : stateUnder E s (k + 1) =
    enterWait (enc (stateUnder E s k).cur { stateUnder E s k with env := [] }) :=
  Host.Outcome.next.inj ((step_stateUnder E s k).symm.trans
    (step_apply (by exact stateUnder_cfg hc k) (by exact hp) rfl (hnever k)))

theorem stateUnder_succ_of_timer {k : Nat} (hp : (stateUnder E s k).ph = phaseWait) (ht : (E k).timerDone = true) :
    stateUnder E s (k + 1) = { stateUnder E s k with ph := phaseAdv, wt := .idle, env := [] } :=
  Host.Outcome.next.inj ((step_stateUnder E s k).symm.trans
    (step_wait_timer (by exact stateUnder_cfg hc k) (by exact hp) rfl (hnever k) ht))

theorem stateUnder_succ_of_adv {k : Nat} (hp : (stateUnder E s k).ph = phaseAdv) : stateUnder E s (k + 1) =
    { stateUnder E s k with ph := phaseLog, cur := advanceDigit (stateUnder E s k).cur, env := [] } :=
  Host.Outcome.next.inj ((step_stateUnder E s k).symm.trans
    (step_adv (by exact stateUnder_cfg hc k) (by exact hp) rfl (hnever k)))

/-- In WAIT the next state is in ADV or still in WAIT, with CUR kept (R84). -/
theorem stateUnder_succ_of_wait {k : Nat} (hp : (stateUnder E s k).ph = phaseWait) :
    ((stateUnder E s (k + 1)).ph = phaseAdv ∨ (stateUnder E s (k + 1)).ph = phaseWait) ∧
      (stateUnder E s (k + 1)).cur = (stateUnder E s k).cur := by
  have hstep := step_stateUnder E s k
  have hr : (currentSlot { stateUnder E s k with env := [E k] }).reset = none := hnever k
  constructor
  · rcases step_ph_cases (by exact stateUnder_cfg hc k) hstep with ⟨hreset, -⟩ | ⟨-, -, hheld⟩ | hended
    · exact absurd hr hreset
    · exact .inr (hheld.trans hp)
    · exact .inl (hended.trans (congrArg nextPhase hp))
  · by_contra hne
    obtain ⟨-, hchange⟩ := onlyAdvAndResetChangeCur _ _ hstep
    rcases hchange hne with ⟨-, ⟨kind, hreset, -⟩ | ⟨-, hadv, -⟩⟩
    · simp [hr] at hreset
    · simp [hp] at hadv

theorem comesToNextDigit_of_adv {k : Nat} (hp : (stateUnder E s k).ph = phaseAdv) : ComesToNextDigit E s k :=
  ⟨k + 1, by omega, by rw [stateUnder_succ_of_adv hc hnever hp], by rw [stateUnder_succ_of_adv hc hnever hp]⟩

/-- A WAIT ends by the step at which TIMER_DONE comes, `n` steps ahead, if not before (R84). -/
theorem comesToNextDigit_of_timer (n : Nat) {k : Nat} (hp : (stateUnder E s k).ph = phaseWait)
    (ht : (E (k + n)).timerDone = true) : ComesToNextDigit E s k := by
  induction n generalizing k with
  | zero =>
    have hend := stateUnder_succ_of_timer hc hnever hp ht
    exact (comesToNextDigit_of_adv hc hnever (by rw [hend])).of_succ (by rw [hend])
  | succ n ih =>
    obtain ⟨hended | hheld, hkept⟩ := stateUnder_succ_of_wait hc hnever hp
    · exact (comesToNextDigit_of_adv hc hnever hended).of_succ hkept
    · exact (ih hheld (by rwa [Nat.succ_add])).of_succ hkept

/-- Under fairness the next digit comes from whatever phase the block is in (R90, R126). -/
theorem comesToNextDigit (hfair : TimerFair E s) (k : Nat) : ComesToNextDigit E s k := by
  have ofWait {k : Nat} (hp : (stateUnder E s k).ph = phaseWait) : ComesToNextDigit E s k := by
    obtain ⟨j, hj, ht⟩ := hfair k hp
    exact comesToNextDigit_of_timer hc hnever (j - k) hp (by rwa [Nat.add_sub_cancel' hj])
  have ofApply {k : Nat} (hp : (stateUnder E s k).ph = phaseApply) : ComesToNextDigit E s k := by
    have hnext := stateUnder_succ_of_apply hc hnever hp
    exact (ofWait (by rw [hnext, enterWait_ph])).of_succ (by rw [hnext, enterWait_cur, enc_cur])
  rcases phase_cases (stateUnder E s k).ph with hp | hp | hp | hp
  · have hnext := stateUnder_succ_of_log hc hnever hp
    exact (ofApply (by rw [hnext, setPhase_ph])).of_succ (by rw [hnext, setPhase_cur, emit_cur])
  · exact ofApply hp
  · exact ofWait hp
  · exact comesToNextDigit_of_adv hc hnever hp

/-- Under fairness any number of digits, at least one, is counted on (R88, R90). -/
theorem exists_log_of_digits (hfair : TimerFair E s) (hcur : s.cur.toNat ≤ 9) (k n : Nat) :
    ∃ j, k ≤ j ∧ (stateUnder E s j).ph = phaseLog ∧
      (stateUnder E s j).cur.toNat = ((stateUnder E s k).cur.toNat + (n + 1)) % 10 := by
  have next (i : Nat) : ∃ j, i < j ∧ (stateUnder E s j).ph = phaseLog ∧
      (stateUnder E s j).cur.toNat = ((stateUnder E s i).cur.toNat + 1) % 10 := by
    obtain ⟨j, hj, hp, hadv⟩ := comesToNextDigit hc hnever hfair i
    exact ⟨j, hj, hp, by rw [hadv, advanceDigit_toNat _ (stateUnder_curInRange hcur i)]⟩
  induction n with
  | zero =>
    obtain ⟨j, hj, hlog⟩ := next k
    exact ⟨j, hj.le, hlog⟩
  | succ n ih =>
    obtain ⟨i, hi, -, hcount⟩ := ih
    obtain ⟨j, hj, hp, hnext⟩ := next i
    exact ⟨j, by omega, hp, by omega⟩

end endless

/-- Settles O39: counting on far enough from state `k` comes to LOG with the digit, and its LOG and APPLY are the next two
steps. -/
theorem everyDigitIsShownForEverUnderFairness : Obligations.EveryDigitIsShownForEverUnderFairness := by
  rintro E s hc ⟨hcur, -⟩ hnever hfair d hd k
  obtain ⟨j, hj, hp, hcount⟩ := exists_log_of_digits hc hnever hfair hcur k (d.toNat + 9 - (stateUnder E s k).cur.toNat)
  have hrange : (stateUnder E s k).cur.toNat ≤ 9 := stateUnder_curInRange hcur k
  have hdigit : (stateUnder E s j).cur = d := BitVec.eq_of_toNat_eq (by omega)
  obtain ⟨v, hv⟩ := exists_word_of_le hd
  have hlog := stateUnder_succ_of_log hc hnever hp
  have happly := stateUnder_succ_of_apply hc hnever (k := j + 1) (by rw [hlog, setPhase_ph])
  have hshown : (stateUnder E s (j + 1)).cur = d := by rw [hlog, setPhase_cur, emit_cur, hdigit]
  refine ⟨j, hj, hp, hdigit, by rw [hlog, setPhase_console, emit_console, hdigit], ?_⟩
  rw [happly, hshown, enc_of_word hv, enterWait_seg, segWrite_seg, hv]

end Sys2Proof.Machine
end
